-- ==== Sys2Proof/Word.lean ====
section
/-! DEFINITION. The byte and the 8-byte device address (spec/00_scope.md R8, spec/30_encoding.md R80). -/

namespace Sys2Proof

/-- A byte: 8 bits, bit 0 the least significant (R8). All values are unsigned. -/
abbrev Byte := BitVec 8

/-- An address: 8 bytes in the order of R80 (byte 0 the family code, bytes 1 to 6 the serial number,
byte 7 the checksum byte). There is no padding and no second representation (R81). -/
structure Address where
  b0 : Byte
  b1 : Byte
  b2 : Byte
  b3 : Byte
  b4 : Byte
  b5 : Byte
  b6 : Byte
  b7 : Byte
  deriving DecidableEq, Repr

/-- The address whose 8 bytes are all zero. -/
def Address.zero : Address := ⟨0, 0, 0, 0, 0, 0, 0, 0⟩

end Sys2Proof
end

