-- ==== Sys2Proof/Syntax.lean ====
section
/-! DEFINITION. The host commands: one constructor per row of spec/opcode_table.json, in the order of
spec/30_encoding.md R88. The two commands of format A carry their 8-byte operand, so a command cut short
cannot be written (spec/93_implementation_defined.md U2). -/

namespace Sys2Proof

/-- A host command (R88). -/
inductive Instr where
  /-- `FULL_SCAN` (R131). -/
  | fullScan
  /-- `STEP_NEXT` (R133). -/
  | stepNext
  /-- `CONFIRM_PRESENT a` (R141). -/
  | confirmPresent (a : Address)
  /-- `LOAD_ADDRESS a` (R144). -/
  | loadAddress (a : Address)
  /-- `RESTART` (R120). -/
  | restart
  /-- `GET_RESULT` (R150). -/
  | getResult
  /-- `GET_COUNT` (R151). -/
  | getCount
  /-- `GET_FAMILY` (R152). -/
  | getFamily
  /-- `GET_ID` (R153). -/
  | getId
  /-- `GET_PIN` (R154). -/
  | getPin
  /-- `GET_ADDRESS` (R155). -/
  | getAddress
  /-- `GET_SERIAL` (R156). -/
  | getSerial
  /-- `GET_IS_SUCCESS` (R157). -/
  | getIsSuccess
  /-- `GET_IS_ERROR` (R158). -/
  | getIsError
  deriving DecidableEq, Repr

end Sys2Proof
end

