-- ==== Sys2Proof/WellFormed.lean ====
section
/-! DEFINITION. When a byte string is exactly one host command (spec/30_encoding.md R84, R88). A term of
`Instr` is always well formed, because its operands are typed; the checks are on the bytes a host sends. -/

namespace Sys2Proof

/-- The opcodes of format A: `CONFIRM_PRESENT` and `LOAD_ADDRESS` (R84). -/
def formatAOpcodes : List Byte := [0x03, 0x04]

/-- The opcodes of format N: every other defined opcode (R84, R88). -/
def formatNOpcodes : List Byte :=
  [0x01, 0x02, 0x05, 0x10, 0x11, 0x12, 0x13, 0x14, 0x15, 0x16, 0x17, 0x18]

/-- The byte is one of the 14 defined opcodes; the other 242 values are reserved (R88, R89). -/
def definedOpcode (op : Byte) : Bool := formatAOpcodes.contains op || formatNOpcodes.contains op

/-- How many bytes the command beginning with this byte has; a reserved opcode is consumed alone (R84, R89). -/
def commandLength (op : Byte) : Nat := if formatAOpcodes.contains op then 9 else 1

/-- The bytes are one whole command and nothing more: a defined opcode, and as many bytes as its format
says (R84, R90). -/
def wellFormedCommand : List Byte → Bool
  | [] => false
  | op :: operand => definedOpcode op && (op :: operand).length == commandLength op

end Sys2Proof
end

