-- ==== Sys2Proof/Decode.lean ====
section
/-! DEFINITION. Decoding the bytes at the command port (spec/30_encoding.md R84, R85, R88 to R90), total on
every byte string, and the encoder written from the same table. -/

namespace Sys2Proof

/-- What the bytes at the port begin with. -/
inductive Decoded where
  /-- A whole command and the bytes after it. -/
  | command (i : Instr) (rest : List Byte)
  /-- A reserved opcode, which is one byte long (R89), and the bytes after it. -/
  | reserved (opcode : Byte) (rest : List Byte)
  /-- No whole command yet: the port is empty, or the operand of a format A command is cut short (R90). -/
  | incomplete
  deriving DecidableEq, Repr

/-- Operand assembly: `a[i]` is command byte `i + 1` (R85). -/
def takeAddress : List Byte → Option (Address × List Byte)
  | a0 :: a1 :: a2 :: a3 :: a4 :: a5 :: a6 :: a7 :: rest =>
    some (⟨a0, a1, a2, a3, a4, a5, a6, a7⟩, rest)
  | _ => none

/-- A format A command: the operand is the next 8 bytes, or the command is cut short (R90). -/
def decodeOperand (mk : Address → Instr) (bytes : List Byte) : Decoded :=
  match takeAddress bytes with
  | some (a, rest) => .command (mk a) rest
  | none => .incomplete

/-- The opcode map of R88. -/
def decodeOpcode (op : Byte) (rest : List Byte) : Decoded :=
  match op.toNat with
  | 0x01 => .command .fullScan rest
  | 0x02 => .command .stepNext rest
  | 0x03 => decodeOperand .confirmPresent rest
  | 0x04 => decodeOperand .loadAddress rest
  | 0x05 => .command .restart rest
  | 0x10 => .command .getResult rest
  | 0x11 => .command .getCount rest
  | 0x12 => .command .getFamily rest
  | 0x13 => .command .getId rest
  | 0x14 => .command .getPin rest
  | 0x15 => .command .getAddress rest
  | 0x16 => .command .getSerial rest
  | 0x17 => .command .getIsSuccess rest
  | 0x18 => .command .getIsError rest
  | _ => .reserved op rest

/-- What the bytes at the port begin with (R84, R90). -/
def decode : List Byte → Decoded
  | [] => .incomplete
  | op :: rest => decodeOpcode op rest

/-- The opcode byte of a command (R88). -/
def Instr.opcode : Instr → Byte
  | .fullScan => 0x01
  | .stepNext => 0x02
  | .confirmPresent _ => 0x03
  | .loadAddress _ => 0x04
  | .restart => 0x05
  | .getResult => 0x10
  | .getCount => 0x11
  | .getFamily => 0x12
  | .getId => 0x13
  | .getPin => 0x14
  | .getAddress => 0x15
  | .getSerial => 0x16
  | .getIsSuccess => 0x17
  | .getIsError => 0x18

/-- The 8 bytes of an address, byte 0 first (spec/20_memory.md R59). -/
def Address.toBytes (a : Address) : List Byte := [a.b0, a.b1, a.b2, a.b3, a.b4, a.b5, a.b6, a.b7]

/-- The operand bytes of a command: those of the address for format A, none for format N (R84). -/
def Instr.operand : Instr → List Byte
  | .confirmPresent a => a.toBytes
  | .loadAddress a => a.toBytes
  | .fullScan => []
  | .stepNext => []
  | .restart => []
  | .getResult => []
  | .getCount => []
  | .getFamily => []
  | .getId => []
  | .getPin => []
  | .getAddress => []
  | .getSerial => []
  | .getIsSuccess => []
  | .getIsError => []

/-- The bytes a host sends for a command (R84, R85). -/
def encode (i : Instr) : List Byte := i.opcode :: i.operand

/-- The first 9 bytes (the longest command) of an instruction whose low `nbits` bits are `w`, bit 0 the
least significant of the first byte, all higher bits zero. -/
def tableBytes (nbits w : Nat) : List Byte :=
  (List.range 9).map fun i => BitVec.ofNat 8 ((w % 2 ^ nbits) >>> (8 * i))

/-- The bytes of the one command that `tableBytes` begins with. -/
def tableCommand (nbits w : Nat) : List Byte :=
  match tableBytes nbits w with
  | [] => []
  | op :: operand => (op :: operand).take (commandLength op)

/-- The command the decoder reads from a word numbered as spec/opcode_table.json numbers it; none for a
reserved opcode. -/
def decodeTableWord (nbits w : Nat) : Option Instr :=
  match decode (tableCommand nbits w) with
  | .command i _ => some i
  | .reserved _ _ => none
  | .incomplete => none

end Sys2Proof
end

