-- ==== Sys2Proof/Config.lean ====
section
/-! DEFINITION. The implementation parameters of spec/00_scope.md R7: the open ones as one record, which the
machine carries in its state and no command changes (spec/70_reset_and_hazards.md R194, log entry 7), and
the fixed ones as constants. The machine has no free value of its own: what the spec leaves to an oracle,
the transport's answers, is input held in the state (log entry 2). -/

namespace Sys2Proof

/-- `PRESENT_COMPARE` (R7, spec/43_presence_and_load.md R142): what CONFIRM_PRESENT compares. -/
inductive PresentCompare where
  | crcOnly
  | full
  deriving DecidableEq, Repr

/-- The open parameters of R7. Every claim about all states holds for all of their values. -/
structure Params where
  /-- `TARGET_FAMILY`. -/
  targetFamily : Byte
  /-- `SEARCH_CMD`, the one byte the block sends on the bus (spec/30_encoding.md R93). -/
  searchCmd : Byte
  /-- `BUS_PIN`. -/
  busPin : Byte
  /-- `ID_BYTE_INDEX` less one: R7's range 1..6 is exactly this type (log entry 12). -/
  idSerialByte : Fin 6
  /-- `PRESENT_COMPARE`. -/
  presentCompare : PresentCompare
  deriving DecidableEq, Repr

/-- `ID_BYTE_INDEX`, 1..6 (R7). -/
def Params.idByteIndex (p : Params) : Nat := p.idSerialByte.val + 1

/-- The reference values the spec names (R7 and the list of open parameters in
spec/92_eei_decisions.md). DESIGN CHOICE: `State.reset` uses them (log entry 7). -/
def Params.reference : Params :=
  { targetFamily := 0x01, searchCmd := 0xF0, busPin := 0x04, idSerialByte := 0,
    presentCompare := .crcOnly }

/-- `ADDR_BITS` (R7): the positions of an address are 1 to this number. -/
def Config.addrBits : Nat := 64

/-- The largest value of COUNT, whose width `COUNT_WIDTH` is 8 bits (R7). -/
def Config.countMax : Byte := 0xFF

/-- `CRC_POLY_REFLECTED` (R7, spec/40_checksum.md R101). -/
def Config.crcPolyReflected : Byte := 0x8C

/-- `CRC_INIT` (R7). -/
def Config.crcInit : Byte := 0x00

end Sys2Proof
end

