-- ==== Sys2Proof/Machine/Operands.lean ====
section
/-! DEFINITION. The operand forms: bytes and bit positions of an address (spec/00_scope.md R9, R11,
spec/30_encoding.md R80, R81), and the checksum engine over them (spec/40_checksum.md). -/

namespace Sys2Proof.Machine

/-- Byte `i` of an address, counting from 0 (R8); there is no byte 8 or above. -/
def addrByte (a : Address) : Nat → Byte
  | 0 => a.b0
  | 1 => a.b1
  | 2 => a.b2
  | 3 => a.b3
  | 4 => a.b4
  | 5 => a.b5
  | 6 => a.b6
  | 7 => a.b7
  | _ => 0

/-- The address with byte `i` replaced. -/
def setAddrByte (a : Address) (i : Nat) (v : Byte) : Address :=
  match i with
  | 0 => { a with b0 := v }
  | 1 => { a with b1 := v }
  | 2 => { a with b2 := v }
  | 3 => { a with b3 := v }
  | 4 => { a with b4 := v }
  | 5 => { a with b5 := v }
  | 6 => { a with b6 := v }
  | 7 => { a with b7 := v }
  | _ => a

/-- The byte with bit `j` replaced. -/
def setByteBit (v : Byte) (j : Nat) (d : Bool) : Byte :=
  if d then v ||| (1#8 <<< j) else v &&& ~~~(1#8 <<< j)

/-- `abit(a, k)` for `k` in 1..64: bit `(k - 1) mod 8` of byte `(k - 1) div 8` (R9). -/
def abit (a : Address) (k : Nat) : Bool := (addrByte a ((k - 1) / 8)).getLsbD ((k - 1) % 8)

/-- `abit(a, k) <- d` for `k` in 1..64 (R9). -/
def setAbit (a : Address) (k : Nat) (d : Bool) : Address :=
  setAddrByte a ((k - 1) / 8) (setByteBit (addrByte a ((k - 1) / 8)) ((k - 1) % 8) d)

/-- `a <T b`, `a` comes before `b` in tree order: at the smallest position where they differ `a` has 0 (R11). -/
abbrev treeLt (a b : Address) : Prop :=
  ∃ k ∈ List.range' 1 64, (∀ j ∈ List.range' 1 (k - 1), abit a j = abit b j) ∧
    abit a k = false ∧ abit b k = true

/-- The family code (R81). -/
def family (a : Address) : Byte := a.b0

/-- The six serial-number bytes, in address order (R81, spec/20_memory.md R59). -/
def serial (a : Address) : List Byte := [a.b1, a.b2, a.b3, a.b4, a.b5, a.b6]

/-- The checksum byte (R81). -/
def crcByte (a : Address) : Byte := a.b7

/-- Bytes 0 to 6, over which the checksum is taken (R80, `CRC_SPAN`). -/
def checkedBytes (a : Address) : List Byte := [a.b0, a.b1, a.b2, a.b3, a.b4, a.b5, a.b6]

/-- One inner iteration of R100: the feedback bit is bit 0 of `crc XOR inbyte`. -/
def crcShift (crc inbyte : Byte) : Byte :=
  if (crc ^^^ inbyte).getLsbD 0 then (crc >>> 1) ^^^ Config.crcPolyReflected else crc >>> 1

/-- `n` inner iterations of R100, shifting the input byte right after each. -/
def crcShifts : Nat → Byte → Byte → Byte
  | 0, crc, _ => crc
  | n + 1, crc, inbyte => crcShifts n (crcShift crc inbyte) (inbyte >>> 1)

/-- One byte of the outer loop of R100. -/
def crcStep (crc inbyte : Byte) : Byte := crcShifts 8 crc inbyte

/-- `crc8(s)` (R100): no final complement, reflection or XOR. -/
def crc8 (s : List Byte) : Byte := s.foldl crcStep Config.crcInit

/-- An address is valid when its checksum byte is that of its first seven bytes (R80, R103). -/
def valid (a : Address) : Bool := crc8 (checkedBytes a) == crcByte a

end Sys2Proof.Machine
end

