-- ==== Sys2Proof/Machine/State.lean ====
section
/-! DEFINITION. The state of one bus session as plain data: every register of spec/10_state.md (R20 to R28),
the control point of a command in progress (R29), and the inputs and the event history the model keeps
beside them. Also the machine right after reset (R32), and the ways a step can stop. -/

namespace Sys2Proof.Machine

/-- The result codes (spec/30_encoding.md R82). -/
inductive ResultCode where
  | success
  | endOfEnum
  | noDevice
  | crcMismatch
  deriving DecidableEq, Repr

/-- The status of a response (R86). -/
inductive Status where
  | ack
  | illegal
  deriving DecidableEq, Repr

/-- The events of spec/20_memory.md R68. A transport primitive is recorded when it completes, with the value
it moved. -/
inductive Event where
  /-- The block took a command from the port: its opcode and operand bytes. -/
  | accepted (opcode : Byte) (operand : List Byte)
  /-- `T_RESET() -> p` (R50). -/
  | tReset (p : Bool)
  /-- `T_WRITE_BYTE(v)` (R50). -/
  | tWriteByte (v : Byte)
  /-- `T_READ_BIT() -> b` (R50). -/
  | tReadBit (b : Bool)
  /-- `T_WRITE_BIT(d)` (R50). -/
  | tWriteBit (d : Bool)
  /-- `respond(status, payload)` (R86). -/
  | response (status : Status) (payload : List Byte)
  deriving DecidableEq, Repr

/-- Where the devices of the ideal bus stand inside one position of the search (R58, its `phase` 0, 1, 2). -/
inductive BusPhase where
  | value
  | complement
  | direction
  deriving DecidableEq, Repr

/-- The ideal bus of R58: the population `P`, the participating devices `A`, the position `k`, the phase and
whether a search conversation is on. -/
structure IdealBus where
  population : List Address
  participants : List Address
  position : Nat
  phase : BusPhase
  searching : Bool
  deriving DecidableEq, Repr

/-- What the transport will answer. It is an input, no register of the block (R55, R57). -/
inductive Line where
  /-- Any answers whatever, the next one first: one for each `T_RESET` and each `T_READ_BIT` (R55, log entry 2);
  and how many more writes the transport will complete (log entry 16). With no answer left a read has not
  completed, with no completion left a write has not, and the block waits (R52). -/
  | script (answers : List Bool) (writes : Nat)
  /-- The ideal bus, the named reference environment (R58, log entry 3). -/
  | ideal (bus : IdealBus)
  deriving DecidableEq, Repr

/-- A command that drives the iterator, with the data local to its loop (R131, R133, R141). -/
inductive BusTask where
  /-- FULL_SCAN with its local count `n`. -/
  | fullScan (n : Byte)
  /-- STEP_NEXT. -/
  | stepNext
  /-- CONFIRM_PRESENT with its own copy of the operand (R85). -/
  | confirmPresent (a : Address)
  deriving DecidableEq, Repr

/-- Where inside ITER_STEP (spec/41_iterator.md R114) the command stands. -/
inductive Await where
  /-- About to call ITER_STEP. -/
  | entry
  /-- Waiting for the answer of `T_RESET`. -/
  | presence
  /-- Waiting for `T_WRITE_BYTE(SEARCH_CMD)` to complete. -/
  | command
  /-- Waiting for the first read at position `k`. -/
  | value (k : Nat) (lastZero : Fin 65)
  /-- Waiting for the second read at position `k`, the first having returned `b`. -/
  | complement (k : Nat) (lastZero : Fin 65) (b : Bool)
  /-- Waiting for `T_WRITE_BIT(d)` at position `k` to complete; SRCH and `last_zero` are already as R114 says. -/
  | direction (k : Nat) (lastZero : Fin 65) (d : Bool)
  deriving DecidableEq, Repr

/-- The control point (R29): BUSY is 1 exactly in the running form (R28, log entry 6). -/
inductive Control where
  | idle
  | running (task : BusTask) (at' : Await)
  deriving DecidableEq, Repr

/-- One bus session. -/
structure State where
  /-- The parameters of R7, constant (log entry 7). -/
  params : Params
  /-- `ADDR`, the caller-visible address buffer (R20). -/
  addr : Address
  /-- `SRCH`, the iterator's search-position buffer (R21). -/
  srch : Address
  /-- `LD`, the last-discrepancy position, 0..64 (R22). -/
  ld : Fin 65
  /-- `LAST_DEVICE` (R23). -/
  lastDevice : Bool
  /-- `MATCH_SEEN` (R24). -/
  matchSeen : Bool
  /-- `COUNT` (R25). -/
  count : Byte
  /-- `RESULT` (R26). -/
  result : ResultCode
  /-- `PIN` (R27). -/
  pin : Byte
  /-- `BUSY` and the control point of the command in progress (R28, R29). -/
  control : Control
  /-- Input: what the transport will answer (R55, R58). -/
  line : Line
  /-- Input: the bytes the host has sent and the block has not consumed (R84, R90, log entry 1). -/
  port : List Byte
  /-- Input: the host asserts reset (R190, R191, log entry 10). -/
  resetRequest : Bool
  /-- The events so far, newest first (R68, log entry 4). -/
  history : List Event
  deriving DecidableEq, Repr

/-- The block raises no exception, trap or fault (spec/60_exceptions.md R170): there is no way to fault. -/
inductive Fault where
  deriving DecidableEq, Repr

/-- The ways a step can be refused. -/
inductive Refusal where
  /-- Raised by an arm of `exec` that has no meaning yet; no arm does. Safe. -/
  | notModelled (mnemonic : String)
  /-- Raised by FULL_SCAN, in `fullScanYield`, when a 256th qualifying device is counted: the spec says that a
  model refuses it (R25, spec/93_implementation_defined.md U5, log entry 8). Safe. -/
  | countOverflow
  /-- Raised by the meaning of any command given to `exec` while another one runs: the spec says that a model
  refuses it (R178, spec/93_implementation_defined.md U1, log entry 9). `step` never raises it. Safe. -/
  | commandWhileBusy
  deriving DecidableEq, Repr

/-- The outcome of a step. -/
abbrev Result := Host.Outcome State Fault Refusal

/-- The machine right after reset, for given parameters (R32), with nothing at its inputs (log entry 11). -/
def State.resetWith (p : Params) : State :=
  { params := p
    addr := Address.zero
    srch := Address.zero
    ld := 0
    lastDevice := false
    matchSeen := false
    count := 0
    result := .noDevice
    pin := p.busPin
    control := .idle
    line := .script [] 0
    port := []
    resetRequest := false
    history := [] }

/-- The machine right after reset (R32, R190) with the spec's reference parameters (log entry 7). -/
def State.reset : State := State.resetWith Params.reference

end Sys2Proof.Machine
end

