-- ==== Sys2Proof/Machine/Flags.lean ====
section
/-! DEFINITION. The computed flags: result codes and statuses as numbers, the success and error predicates, and
the tests the commands make on a yielded address. -/

namespace Sys2Proof.Machine

/-- `zext_8` of a result code (spec/30_encoding.md R82). -/
def resultByte : ResultCode → Byte
  | .success => 0x00
  | .endOfEnum => 0x01
  | .noDevice => 0x02
  | .crcMismatch => 0x03

/-- The value of a status (R86). -/
def statusValue : Status → Nat
  | .ack => 0
  | .illegal => 1

/-- GET_IS_SUCCESS's predicate (spec/44_getters.md R157). -/
def isSuccess (r : ResultCode) : Bool := r == .success

/-- GET_IS_ERROR's predicate: END_OF_ENUM is neither success nor error (R158). -/
def isError (r : ResultCode) : Bool := r == .noDevice || r == .crcMismatch

/-- A truth value as a payload byte (R157, R158). -/
def flagByte (b : Bool) : Byte := if b then 0x01 else 0x00

/-- The test of the full count: target family and a correct checksum byte (spec/42_enumeration.md R131). -/
def qualifies (p : Params) (a : Address) : Bool := family a == p.targetFamily && valid a

/-- The test of the step iteration: the target family, and nothing else (R133). -/
def targetFamily (p : Params) (a : Address) : Bool := family a == p.targetFamily

/-- The match test of the presence verifier on a yielded address and the operand
(spec/43_presence_and_load.md R141). -/
def presentMatch (p : Params) (yielded operand : Address) : Bool :=
  let ownOk := crcByte yielded == crc8 (checkedBytes yielded)
  let crcEq := crcByte yielded == crcByte operand
  let fullEq := yielded == operand
  match p.presentCompare with
  | .crcOnly => ownOk && crcEq
  | .full => ownOk && crcEq && fullEq

/-- `BUSY` (spec/10_state.md R28). -/
def State.busy (s : State) : Bool :=
  match s.control with
  | .idle => false
  | .running _ _ => true

end Sys2Proof.Machine
end

