-- ==== Sys2Proof/Machine/Bus.lean ====
section
/-! DEFINITION. The transport: the ideal bus of spec/20_memory.md R58 and the answers of the line. -/

namespace Sys2Proof.Machine

/-- The ideal bus `P` with no conversation on it. -/
def IdealBus.quiet (population : List Address) : IdealBus :=
  { population := population, participants := [], position := 0, phase := .value, searching := false }

/-- `T_RESET()` on the ideal bus (R58). -/
def IdealBus.reset (bus : IdealBus) : Bool × IdealBus :=
  (!bus.population.isEmpty, { bus with participants := [], searching := false })

/-- `T_WRITE_BYTE(v)` on the ideal bus: the search command makes every device take part; to any other byte no
device reacts (R58). -/
def IdealBus.writeByte (searchCmd v : Byte) (bus : IdealBus) : IdealBus :=
  if v = searchCmd then
    { bus with participants := bus.population, position := 1, phase := .value, searching := true }
  else bus

/-- `T_READ_BIT()` on the ideal bus: a wired AND of the participants' bits, then of their complements (R58). -/
def IdealBus.readBit (bus : IdealBus) : Bool × IdealBus :=
  if !bus.searching || bus.position > 64 then (true, bus)
  else
    match bus.phase with
    | .value => (bus.participants.all fun a => abit a bus.position, { bus with phase := .complement })
    | .complement => (bus.participants.all fun a => !abit a bus.position, { bus with phase := .direction })
    | .direction => (bus.participants.all fun a => !abit a bus.position, { bus with phase := .direction })

/-- `T_WRITE_BIT(d)` on the ideal bus: the devices whose bit is not `d` drop out (R58). -/
def IdealBus.writeBit (d : Bool) (bus : IdealBus) : IdealBus :=
  if bus.searching && bus.position ≤ 64 then
    { bus with
      participants := bus.participants.filter fun a => abit a bus.position == d
      position := bus.position + 1
      phase := .value }
  else bus

/-- The line's answer to `T_RESET`, if there is one yet. -/
def Line.reset : Line → Option (Bool × Line)
  | .script [] _ => none
  | .script (p :: rest) writes => some (p, .script rest writes)
  | .ideal bus => some (bus.reset.1, .ideal bus.reset.2)

/-- The line's answer to `T_READ_BIT`, if there is one yet. -/
def Line.readBit : Line → Option (Bool × Line)
  | .script [] _ => none
  | .script (b :: rest) writes => some (b, .script rest writes)
  | .ideal bus => some (bus.readBit.1, .ideal bus.readBit.2)

/-- The line after `T_WRITE_BYTE(v)`, if the transport has completed it. -/
def Line.writeByte (searchCmd v : Byte) : Line → Option Line
  | .script _ 0 => none
  | .script answers (writes + 1) => some (.script answers writes)
  | .ideal bus => some (.ideal (bus.writeByte searchCmd v))

/-- The line after `T_WRITE_BIT(d)`, if the transport has completed it. -/
def Line.writeBit (d : Bool) : Line → Option Line
  | .script _ 0 => none
  | .script answers (writes + 1) => some (.script answers writes)
  | .ideal bus => some (.ideal (bus.writeBit d))

/-- How many more iterator steps one burst of a command may begin after its first: never fewer than the line can
answer, with one that only reports the exhausted tree (R207, log entry 5). A burst that ends early leaves the
command running, and the next step goes on. -/
def Line.burst : Line → Nat
  | .script answers _ => answers.length + 1
  | .ideal bus => bus.population.length + 1

end Sys2Proof.Machine
end

