-- ==== Sys2Proof/Machine/Ops.lean ====
section
/-! DEFINITION. The named operations on the state that the commands share: accepting a command, responding,
setting a result code, the four transport primitives, fetching from the port, and taking a reset. The block has
no exceptions: what other hardware does by taking one, this one does by `State.report` (spec/60_exceptions.md
R170). -/

namespace Sys2Proof.Machine

/-- Adds an event to the history (spec/20_memory.md R68). -/
def State.record (e : Event) (s : State) : State := { s with history := e :: s.history }

/-- `respond(status, payload)`: ends a command, so BUSY falls (spec/30_encoding.md R86, spec/10_state.md R28). -/
def State.respond (status : Status) (payload : List Byte) (s : State) : State :=
  { s with control := .idle, history := .response status payload :: s.history }

/-- The error and success report of an operation command: RESULT takes the code and the response carries it
(spec/60_exceptions.md R170, spec/30_encoding.md R86). -/
def State.report (code : ResultCode) (s : State) : State :=
  State.respond .ack [resultByte code] { s with result := code }

/-- Accepts a command and runs its body. While another command runs none is accepted, and a host that presents
one anyway is refused (spec/60_exceptions.md R178, log entry 9). -/
def State.accept (i : Instr) (body : State → Result) (s : State) : Result :=
  match s.control with
  | .running _ _ => .refused .commandWhileBusy
  | .idle => body (s.record (.accepted i.opcode i.operand))

/-- The answer to a reserved opcode (spec/30_encoding.md R89). -/
def State.illegal (opcode : Byte) (s : State) : State :=
  (s.record (.accepted opcode [])).respond .illegal []

/-- `T_RESET() -> p`, or nothing while the transport has not answered (spec/20_memory.md R50, R52). -/
def State.tReset (s : State) : Option (Bool × State) :=
  match s.line.reset with
  | none => none
  | some (p, line) => some (p, { s with line := line, history := .tReset p :: s.history })

/-- `T_READ_BIT() -> b`, or nothing while the transport has not answered (R50, R52). -/
def State.tReadBit (s : State) : Option (Bool × State) :=
  match s.line.readBit with
  | none => none
  | some (b, line) => some (b, { s with line := line, history := .tReadBit b :: s.history })

/-- `T_WRITE_BYTE(v)`, or nothing while the transport has not completed it (R50, R52, log entry 16). -/
def State.tWriteByte (v : Byte) (s : State) : Option State :=
  match s.line.writeByte s.params.searchCmd v with
  | none => none
  | some line => some { s with line := line, history := .tWriteByte v :: s.history }

/-- `T_WRITE_BIT(d)`, or nothing while the transport has not completed it (R50, R52, log entry 16). -/
def State.tWriteBit (d : Bool) (s : State) : Option State :=
  match s.line.writeBit d with
  | none => none
  | some line => some { s with line := line, history := .tWriteBit d :: s.history }

/-- Leaves the command running at a point inside the iterator: BUSY stays 1 and there is no response
(spec/10_state.md R28, spec/20_memory.md R52). -/
def State.suspend (task : BusTask) (point : Await) (s : State) : State :=
  { s with control := .running task point }

/-- Reset, also while a command runs: every register takes its reset value, no primitive is issued, no response
is given, and the bus is left as it stood (spec/70_reset_and_hazards.md R190, R191). The bytes at the port and
the history stay (log entry 10). -/
def State.takeReset (s : State) : State :=
  { State.resetWith s.params with line := s.line, port := s.port, history := s.history }

/-- What the bytes at the port begin with (spec/30_encoding.md R90). -/
def State.fetch (s : State) : Decoded := decode s.port

/-- The state with those bytes ahead of the others at the port and nothing in the way of the block's fetching
them. -/
def State.place (bytes : List Byte) (s : State) : State :=
  { s with port := bytes ++ s.port, control := .idle, resetRequest := false }

end Sys2Proof.Machine
end

