-- ==== Sys2Proof/Machine/Getters.lean ====
section
/-! DEFINITION. The nine getters (spec/44_getters.md): each answers with copies of registers and changes none
(R149). -/

namespace Sys2Proof.Machine

/-- The shared form of a getter: the response carries the payload read from the state (R149). -/
def State.answer (i : Instr) (payload : State → List Byte) (s : State) : Result :=
  s.accept i fun s => .next (s.respond .ack (payload s))

/-- `GET_RESULT` (R150). -/
def execGetResult (s : State) : Result := s.answer .getResult fun s => [resultByte s.result]

/-- `GET_COUNT` (R151). -/
def execGetCount (s : State) : Result := s.answer .getCount fun s => [s.count]

/-- `GET_FAMILY` (R152): the family of the current address, not TARGET_FAMILY. -/
def execGetFamily (s : State) : Result := s.answer .getFamily fun s => [addrByte s.addr 0]

/-- `GET_ID` (R153). -/
def execGetId (s : State) : Result := s.answer .getId fun s => [addrByte s.addr s.params.idByteIndex]

/-- `GET_PIN` (R154). -/
def execGetPin (s : State) : Result := s.answer .getPin fun s => [s.pin]

/-- `GET_ADDRESS` (R155): 8 bytes, byte 0 first. -/
def execGetAddress (s : State) : Result := s.answer .getAddress fun s => s.addr.toBytes

/-- `GET_SERIAL` (R156): 6 bytes, `ADDR[1]` first. -/
def execGetSerial (s : State) : Result := s.answer .getSerial fun s => serial s.addr

/-- `GET_IS_SUCCESS` (R157). -/
def execGetIsSuccess (s : State) : Result := s.answer .getIsSuccess fun s => [flagByte (isSuccess s.result)]

/-- `GET_IS_ERROR` (R158). -/
def execGetIsError (s : State) : Result := s.answer .getIsError fun s => [flagByte (isError s.result)]

end Sys2Proof.Machine
end

