-- ==== Sys2Proof/Machine/Iterator.lean ====
section
/-! DEFINITION. The bus search iterator (spec/41_iterator.md): ITER_RESTART, ITER_TARGET, ITER_STEP, the loop
around it that FULL_SCAN, STEP_NEXT and CONFIRM_PRESENT share, and the host command RESTART. -/

namespace Sys2Proof.Machine

/-- `ITER_RESTART()` (R110). -/
def State.iterRestart (s : State) : State :=
  { s with srch := Address.zero, ld := 0, lastDevice := false }

/-- `ITER_TARGET(f)` (R112). -/
def State.iterTarget (f : Byte) (s : State) : State :=
  { s with srch := { Address.zero with b0 := f }, ld := 64, lastDevice := false }

/-- How an ITER_STEP ends: a yield, "not found" (R83), or a wait for the transport (R52). -/
inductive IterResult where
  | found (s : State)
  | notFound (s : State)
  | waits (point : Await) (s : State)
  deriving DecidableEq, Repr

/-- The direction taken at position `k` after the reads `b`, `c`, which are not both 1 (R114, R93). -/
def direction (ld : Fin 65) (srch : Address) (k : Nat) (b c : Bool) : Bool :=
  if b != c then b
  else if k < ld.val then abit srch k
  else k == ld.val

/-- `last_zero` after position `k`: the deepest position where the 0-branch was taken at a discrepancy (R114). -/
def nextLastZero (k : Nat) (b c d : Bool) (lastZero : Fin 65) : Fin 65 :=
  if b == c && !d then Fin.ofNat 65 k else lastZero

/-- `abit(SRCH, k) <- d` (R114). -/
def State.follow (k : Nat) (d : Bool) (s : State) : State := { s with srch := setAbit s.srch k d }

/-- What position `k` does with its pair of reads: nothing when nobody answered, else the new `last_zero`, the
direction to write, and the state with the direction in SRCH (R114). -/
def State.branch (k : Nat) (lastZero : Fin 65) (b c : Bool) (s : State) : Option (Fin 65 × Bool × State) :=
  if b && c then none
  else
    let d := direction s.ld s.srch k b c
    some (nextLastZero k b c d lastZero, d, s.follow k d)

/-- The end of a step that found an address (R114): `LD <- last_zero`, LAST_DEVICE set when that is 0, and all of
SRCH copied to ADDR. -/
def State.yieldAddress (lastZero : Fin 65) (s : State) : State :=
  { s with ld := lastZero, lastDevice := s.lastDevice || lastZero == 0, addr := s.srch }

/-- The loop of R114 over `n` positions from `k` on. -/
def searchFrom : Nat → Nat → Fin 65 → State → IterResult
  | 0, _, lastZero, s => .found (s.yieldAddress lastZero)
  | n + 1, k, lastZero, s =>
    match s.tReadBit with
    | none => .waits (.value k lastZero) s
    | some (b, s1) =>
      match s1.tReadBit with
      | none => .waits (.complement k lastZero b) s1
      | some (c, s2) =>
        match s2.branch k lastZero b c with
        | none => .notFound s2.iterRestart
        | some (lastZero', d, s3) =>
          match s3.tWriteBit d with
          | none => .waits (.direction k lastZero' d) s3
          | some s4 => searchFrom n (k + 1) lastZero' s4

/-- The loop of R114 entered at the write of position `k`. -/
def searchDirection (k : Nat) (lastZero : Fin 65) (d : Bool) (s : State) : IterResult :=
  match s.tWriteBit d with
  | none => .waits (.direction k lastZero d) s
  | some s1 => searchFrom (64 - k) (k + 1) lastZero s1

/-- The loop of R114 entered at the second read of position `k`. -/
def searchComplement (k : Nat) (lastZero : Fin 65) (b : Bool) (s : State) : IterResult :=
  match s.tReadBit with
  | none => .waits (.complement k lastZero b) s
  | some (c, s1) =>
    match s1.branch k lastZero b c with
    | none => .notFound s1.iterRestart
    | some (lastZero', d, s2) => searchDirection k lastZero' d s2

/-- R114 from the write of the search command on (R93). -/
def searchCommand (s : State) : IterResult :=
  match s.tWriteByte s.params.searchCmd with
  | none => .waits .command s
  | some s1 => searchFrom 64 1 0 s1

/-- R114 from the T_RESET on: with no presence pulse the step ends, else the search command is sent. -/
def searchBus (s : State) : IterResult :=
  match s.tReset with
  | none => .waits .presence s
  | some (false, s1) => .notFound s1.iterRestart
  | some (true, s1) => searchCommand s1

/-- `ITER_STEP() -> found` (R114): an exhausted iterator reports "not found" without bus traffic. -/
def iterStep (s : State) : IterResult :=
  if s.lastDevice then .notFound s.iterRestart else searchBus s

/-- ITER_STEP from the point where it waited. -/
def iterFrom : Await → State → IterResult
  | .entry, s => iterStep s
  | .presence, s => searchBus s
  | .command, s => searchCommand s
  | .value k lastZero, s => searchFrom (65 - k) k lastZero s
  | .complement k lastZero b, s => searchComplement k lastZero b s
  | .direction k lastZero d, s => searchDirection k lastZero d s

/-- What a command does with a yielded address: go on with its loop data, end, or be refused. -/
inductive LoopNext (α : Type) where
  | again (x : α)
  | done (s : State)
  | refuse (r : Refusal)
  deriving DecidableEq, Repr

/-- The loop `while ITER_STEP() = 1` of R131, R133 and R141: `onYield` is its body, `onEnd` what follows it. At
most `n` more steps are begun after the first (log entry 5). -/
def iterLoop {α : Type} (task : α → BusTask) (onYield : α → State → LoopNext α) (onEnd : α → State → State) :
    Nat → α → Await → State → Result
  | n, x, point, s =>
    match iterFrom point s with
    | .waits point' s' => .next (s'.suspend (task x) point')
    | .notFound s' => .next (onEnd x s')
    | .found s' =>
      match onYield x s' with
      | .done s'' => .next s''
      | .refuse r => .refused r
      | .again x' =>
        match n with
        | 0 => .next (s'.suspend (task x') .entry)
        | n' + 1 => iterLoop task onYield onEnd n' x' .entry s'

/-- `RESTART` (R120): rewinds the iterator and nothing else; it sets no result code and issues no primitive. -/
def execRestart (s : State) : Result :=
  s.accept .restart fun s => .next (s.iterRestart.respond .ack [])

end Sys2Proof.Machine
end

