-- ==== Sys2Proof/Machine/Enumeration.lean ====
section
/-! DEFINITION. Discovery and enumeration: FULL_SCAN and STEP_NEXT (spec/42_enumeration.md). -/

namespace Sys2Proof.Machine

/-- The body of FULL_SCAN's loop (R131): a qualifying address is counted. A 256th one is refused (spec/10_state.md
R25, log entry 8). -/
def fullScanYield (n : Byte) (s : State) : LoopNext Byte :=
  if qualifies s.params s.addr then
    if n = Config.countMax then .refuse .countOverflow else .again (n + 1)
  else .again n

/-- What FULL_SCAN does after its loop (R131). -/
def fullScanEnd (n : Byte) (s : State) : State :=
  State.report (if n = 0 then .noDevice else .success) { s with count := n }.iterRestart

/-- FULL_SCAN from a point of its loop. -/
def fullScanLoop (n : Byte) (point : Await) (s : State) : Result :=
  iterLoop .fullScan fullScanYield fullScanEnd s.line.burst n point s

/-- `FULL_SCAN` (R131). -/
def execFullScan (s : State) : Result :=
  s.accept .fullScan fun s => fullScanLoop 0 .entry s.iterRestart

/-- The body of STEP_NEXT's loop (R133): a foreign address is skipped; the checksum is not tested (R130). -/
def stepNextYield (_ : Unit) (s : State) : LoopNext Unit :=
  if targetFamily s.params s.addr then .done (State.report .success { s with matchSeen := true })
  else .again ()

/-- What STEP_NEXT does when the iterator reports "not found" (R133): MATCH_SEEN is read, then cleared. -/
def stepNextEnd (_ : Unit) (s : State) : State :=
  State.report (if s.matchSeen then .endOfEnum else .noDevice) { s with matchSeen := false }.iterRestart

/-- STEP_NEXT from a point of its loop. -/
def stepNextLoop (point : Await) (s : State) : Result :=
  iterLoop (fun _ => .stepNext) stepNextYield stepNextEnd s.line.burst () point s

/-- `STEP_NEXT` (R133): it does not rewind at its start. -/
def execStepNext (s : State) : Result :=
  s.accept .stepNext fun s => stepNextLoop .entry s

end Sys2Proof.Machine
end

