-- ==== Sys2Proof/Machine/Presence.lean ====
section
/-! DEFINITION. The presence verifier and the address load: CONFIRM_PRESENT and LOAD_ADDRESS
(spec/43_presence_and_load.md). -/

namespace Sys2Proof.Machine

/-- The body of CONFIRM_PRESENT's loop (R141): the first yielded address that passes the match test ends the
command, with the iterator rewound. Neither the yielded family nor the operand's checksum is tested. -/
def confirmYield (a : Address) (s : State) : LoopNext Address :=
  if presentMatch s.params s.addr a then .done (s.iterRestart.report .success) else .again a

/-- What CONFIRM_PRESENT does when the pass ends with no match (R141). -/
def confirmEnd (_ : Address) (s : State) : State := s.iterRestart.report .noDevice

/-- CONFIRM_PRESENT from a point of its loop. -/
def confirmLoop (a : Address) (point : Await) (s : State) : Result :=
  iterLoop .confirmPresent confirmYield confirmEnd s.line.burst a point s

/-- `CONFIRM_PRESENT a` (R141). -/
def execConfirmPresent (a : Address) (s : State) : Result :=
  s.accept (.confirmPresent a) fun s => confirmLoop a .entry (s.iterTarget s.params.targetFamily)

/-- `LOAD_ADDRESS a` (R144): ADDR is cleared before the checksum is tested; the iterator is not touched. -/
def execLoadAddress (a : Address) (s : State) : Result :=
  s.accept (.loadAddress a) fun s =>
    let cleared := { s with addr := Address.zero }
    if valid a then .next (State.report .success { cleared with addr := a })
    else .next (State.report .crcMismatch cleared)

end Sys2Proof.Machine
end

