-- ==== Sys2Proof/Machine/Resume.lean ====
section
/-! DEFINITION. Going on with a command that waits for the transport (spec/10_state.md R29, spec/20_memory.md
R52). -/

namespace Sys2Proof.Machine

/-- The command in progress goes on from its control point. -/
def resume : BusTask → Await → State → Result
  | .fullScan n, point, s => fullScanLoop n point s
  | .stepNext, point, s => stepNextLoop point s
  | .confirmPresent a, point, s => confirmLoop a point s

end Sys2Proof.Machine
end

