-- ==== Sys2Proof/Machine/Dispatch.lean ====
section
/-! DEFINITION. One arm per host command (spec/30_encoding.md R88). -/

namespace Sys2Proof.Machine

/-- What a command does when the block accepts it. -/
def exec (i : Instr) (s : State) : Host.Outcome State Fault Refusal :=
  match i with
  | .fullScan => Sys2Proof.Machine.execFullScan s
  | .stepNext => Sys2Proof.Machine.execStepNext s
  | .confirmPresent a => Sys2Proof.Machine.execConfirmPresent a s
  | .loadAddress a => Sys2Proof.Machine.execLoadAddress a s
  | .restart => Sys2Proof.Machine.execRestart s
  | .getResult => Sys2Proof.Machine.execGetResult s
  | .getCount => Sys2Proof.Machine.execGetCount s
  | .getFamily => Sys2Proof.Machine.execGetFamily s
  | .getId => Sys2Proof.Machine.execGetId s
  | .getPin => Sys2Proof.Machine.execGetPin s
  | .getAddress => Sys2Proof.Machine.execGetAddress s
  | .getSerial => Sys2Proof.Machine.execGetSerial s
  | .getIsSuccess => Sys2Proof.Machine.execGetIsSuccess s
  | .getIsError => Sys2Proof.Machine.execGetIsError s

end Sys2Proof.Machine
end

