-- ==== Sys2Proof/Machine/Step.lean ====
section
/-! DEFINITION. One step of the machine: reset if the host asserts it, else go on with the command in progress,
else take the next command from the port (spec/60_exceptions.md R177 (a), R178, spec/70_reset_and_hazards.md
R191). -/

namespace Sys2Proof.Machine

/-- One step. With no whole command at the port an idle block waits (spec/30_encoding.md R90, log entry 1). -/
def step (s : State) : Host.Outcome State Fault Refusal :=
  if s.resetRequest then .next s.takeReset
  else
    match s.control with
    | .running task point => resume task point s
    | .idle =>
      match s.fetch with
      | .incomplete => .next s
      | .reserved opcode rest => .next (State.illegal opcode { s with port := rest })
      | .command i rest => exec i { s with port := rest }

/-- The state with one command placed ahead at the port, its bits numbered as spec/opcode_table.json numbers
them (log entry 13). -/
def State.withFetchWord (s : State) (nbits w : Nat) : State := s.place (tableCommand nbits w)

end Sys2Proof.Machine
end

