-- ==== Sys2Proof/Safety.lean ====
section
/-! DEFINITION. The terms claims are stated in: the rewound iterator, the machine's invariant, what the event
history shows, and repeated calls of one operation. -/

namespace Sys2Proof.Machine

/-- The iterator is rewound (spec/10_state.md R31 (c)). -/
abbrev State.Rewound (s : State) : Prop :=
  s.srch = Address.zero ∧ s.ld = 0 ∧ s.lastDevice = false

/-- No command is in progress: BUSY is 0 (R28). -/
abbrev State.Idle (s : State) : Prop := s.control = .idle

/-- The control point lies inside a search conversation, whose T_RESET has been issued. -/
def Await.inSearch : Await → Bool
  | .entry => false
  | .presence => true
  | .command => true
  | .value _ _ => true
  | .complement _ _ _ => true
  | .direction _ _ _ => true

/-- The control point is one that spec/41_iterator.md R114 can reach: a position in 1..64, with `last_zero`
before it, or at it once the direction there is chosen. -/
def Await.legal : Await → Bool
  | .entry => true
  | .presence => true
  | .command => true
  | .value k lastZero => decide (1 ≤ k ∧ k ≤ 64 ∧ lastZero.val < k)
  | .complement k lastZero _ => decide (1 ≤ k ∧ k ≤ 64 ∧ lastZero.val < k)
  | .direction k lastZero _ => decide (1 ≤ k ∧ k ≤ 64 ∧ lastZero.val ≤ k)

/-- The primitive the control point waits for is a write. -/
def Await.isWrite : Await → Bool
  | .entry => false
  | .presence => false
  | .command => true
  | .value _ _ => false
  | .complement _ _ _ => false
  | .direction _ _ _ => true

/-- The control point fits the flag LAST_DEVICE: inside a conversation the flag is 0 (R114). -/
def Control.legal (lastDevice : Bool) : Control → Bool
  | .idle => true
  | .running _ point => point.legal && !(point.inSearch && lastDevice)

/-- The invariant of the machine. PIN holds BUS_PIN (R27). LAST_DEVICE implies LD = 0 (R31 (b)). The control
point is legal. Between commands the iterator is rewound, or a STEP_NEXT of this pass has returned a device:
then the search path is of the target family and MATCH_SEEN is set (R31 (c), (e), spec/42_enumeration.md R133). -/
abbrev State.Inv (s : State) : Prop :=
  s.pin = s.params.busPin ∧
  (s.lastDevice = true → s.ld = 0) ∧
  s.control.legal s.lastDevice = true ∧
  (s.Idle → s.Rewound ∨ (family s.srch = s.params.targetFamily ∧ s.matchSeen = true))

/-- The event is a transport primitive (spec/20_memory.md R50). -/
def Event.isPrimitive : Event → Bool
  | .accepted _ _ => false
  | .tReset _ => true
  | .tWriteByte _ => true
  | .tReadBit _ => true
  | .tWriteBit _ => true
  | .response _ _ => false

/-- How many transport primitives a history holds (R62). -/
def primitives (history : List Event) : Nat := history.countP Event.isPrimitive

/-- The answer an event carries, if it is a read of the transport (R55). -/
def Event.answer? : Event → Option Bool
  | .accepted _ _ => none
  | .tReset p => some p
  | .tWriteByte _ => none
  | .tReadBit b => some b
  | .tWriteBit _ => none
  | .response _ _ => none

/-- The transport's answers a history holds, oldest first. -/
def answersIn (history : List Event) : List Bool := (history.filterMap Event.answer?).reverse

/-- The event is the completion of a write primitive. -/
def Event.isWrite : Event → Bool
  | .accepted _ _ => false
  | .tReset _ => false
  | .tWriteByte _ => true
  | .tReadBit _ => false
  | .tWriteBit _ => true
  | .response _ _ => false

/-- How many completed writes a history holds. -/
def writesIn (history : List Event) : Nat := history.countP Event.isWrite

/-- The event is the acceptance of a command. -/
def Event.isAccepted : Event → Bool
  | .accepted _ _ => true
  | .tReset _ => false
  | .tWriteByte _ => false
  | .tReadBit _ => false
  | .tWriteBit _ => false
  | .response _ _ => false

/-- How many accepted commands a history holds. -/
def acceptances (history : List Event) : Nat := history.countP Event.isAccepted

/-- The event is a response. -/
def Event.isResponse : Event → Bool
  | .accepted _ _ => false
  | .tReset _ => false
  | .tWriteByte _ => false
  | .tReadBit _ => false
  | .tWriteBit _ => false
  | .response _ _ => true

/-- How many responses a history holds. -/
def responses (history : List Event) : Nat := history.countP Event.isResponse

/-- The number of payload bytes in the response to a command (the table of spec/30_encoding.md R88). -/
def payloadLength : Instr → Nat
  | .fullScan => 1
  | .stepNext => 1
  | .confirmPresent _ => 1
  | .loadAddress _ => 1
  | .restart => 0
  | .getResult => 1
  | .getCount => 1
  | .getFamily => 1
  | .getId => 1
  | .getPin => 1
  | .getAddress => 8
  | .getSerial => 6
  | .getIsSuccess => 1
  | .getIsError => 1

/-- The answers for a run of positions: the two reads of each in turn (R114). -/
def pairAnswers : List (Bool × Bool) → List Bool
  | [] => []
  | (b, c) :: rest => b :: c :: pairAnswers rest

/-- The primitives of a run of positions from `k` on, in the order they are issued: read, read, write of the
address's bit (R114, spec/30_encoding.md R93). -/
def positionEvents (a : Address) : Nat → List (Bool × Bool) → List Event
  | _, [] => []
  | k, (b, c) :: rest => .tReadBit b :: .tReadBit c :: .tWriteBit (abit a k) :: positionEvents a (k + 1) rest

/-- The line is the ideal bus with this population, whatever conversation is on it (R58). -/
def State.OnIdealBus (population : List Address) (s : State) : Prop :=
  ∃ bus : IdealBus, s.line = .ideal bus ∧ bus.population = population

/-- Two addresses agree at positions 1 to 63 (spec/41_iterator.md R122). -/
abbrev agreeTo63 (a b : Address) : Prop := ∀ k ∈ List.range' 1 63, abit a k = abit b k

/-- `n` ITER_STEP calls in a row that all yield: the addresses yielded, and the state after. -/
def iterYields : Nat → State → Option (List Address × State)
  | 0, s => some ([], s)
  | n + 1, s =>
    match iterStep s with
    | .found t => (iterYields n t).map fun r => (t.addr :: r.1, r.2)
    | .notFound _ => none
    | .waits _ _ => none

/-- `n` STEP_NEXT commands in a row that all respond: RESULT and ADDR after each, and the state after. -/
def stepNextCalls : Nat → State → Option (List (ResultCode × Address) × State)
  | 0, s => some ([], s)
  | n + 1, s =>
    match exec .stepNext s with
    | .next t => if t.busy then none else (stepNextCalls n t).map fun r => ((t.result, t.addr) :: r.1, r.2)
    | .fault _ => none
    | .refused _ => none

end Sys2Proof.Machine
end

