-- ==== Sys2Proof/Certificates/Slice0/Obligations.lean ====
section
/-! DEFINITION. The statements for the provers, each from the numbered rules of spec/. A statement about all
states holds for every value of the parameters of R7, every list of transport answers and every event history,
since all of these are fields of the state. -/

open Sys2Proof Sys2Proof.Machine

/-! ### Encoding and the command port -/

/-- R88, R85: the opcode byte of each command, and the byte order of an operand, on words written out from the
table. -/
def Obligations.TableWordsDecode : Prop :=
  (∀ rest : List Byte,
    decode (0x01 :: rest) = .command .fullScan rest ∧ decode (0x02 :: rest) = .command .stepNext rest ∧
    decode (0x05 :: rest) = .command .restart rest ∧ decode (0x10 :: rest) = .command .getResult rest ∧
    decode (0x11 :: rest) = .command .getCount rest ∧ decode (0x12 :: rest) = .command .getFamily rest ∧
    decode (0x13 :: rest) = .command .getId rest ∧ decode (0x14 :: rest) = .command .getPin rest ∧
    decode (0x15 :: rest) = .command .getAddress rest ∧ decode (0x16 :: rest) = .command .getSerial rest ∧
    decode (0x17 :: rest) = .command .getIsSuccess rest ∧ decode (0x18 :: rest) = .command .getIsError rest) ∧
  decode [0x03, 0x01, 0x23, 0x45, 0x67, 0x89, 0xAB, 0xCD, 0xE9]
    = .command (.confirmPresent ⟨0x01, 0x23, 0x45, 0x67, 0x89, 0xAB, 0xCD, 0xE9⟩) [] ∧
  decode [0x04, 0x02, 0x1C, 0xB8, 0x01, 0x00, 0x00, 0x00, 0xA2]
    = .command (.loadAddress ⟨0x02, 0x1C, 0xB8, 0x01, 0x00, 0x00, 0x00, 0xA2⟩) []

/-- R84, R85, R90: the bytes at the port begin with a command exactly when they are that command's encoding
followed by the rest, for every command with every operand. So decoding an encoded command gives it back, and no
other bytes decode to it. -/
def Obligations.DecodeIffEncoded : Prop :=
  ∀ (bytes rest : List Byte) (i : Instr), decode bytes = .command i rest ↔ bytes = encode i ++ rest

/-- R84, R88: a byte string is well formed (a defined opcode and the length of its format) exactly when it
decodes whole to a command. -/
def Obligations.WellFormedBytesAreOneCommand : Prop :=
  ∀ bytes : List Byte, wellFormedCommand bytes = true ↔ ∃ i : Instr, decode bytes = .command i []

/-- R89: a reserved opcode is consumed alone and answered ILLEGAL with an empty payload, the one response it gets;
no register changes, and no transport primitive is issued. -/
def Obligations.ReservedOpcodeIsAnsweredIllegal : Prop :=
  ∀ (s : State) (op : Byte) (rest : List Byte),
    (op.toNat = 0x00 ∨ (0x06 ≤ op.toNat ∧ op.toNat ≤ 0x0F) ∨ 0x19 ≤ op.toNat) →
    s.Idle → s.resetRequest = false → s.port = op :: rest →
    ∃ t : State, step s = .next t ∧ t = { s with port := rest, history := t.history } ∧
      t.history.head? = some (.response .illegal []) ∧
      responses t.history = responses s.history + 1 ∧ primitives t.history = primitives s.history

/-- R90: opcode 03 or 04 takes the next 8 bytes as operand, any other byte is a command (or a reserved opcode)
by itself, and a command cut short makes the block wait. That an idle block with nothing to do answers its own
state is the model's form of waiting (log entry 1). -/
def Obligations.DecoderTellsTheLength : Prop :=
  (∀ (op : Byte) (operand rest : List Byte), (op = 0x03 ∨ op = 0x04) → operand.length = 8 →
    ∃ a : Address, a.toBytes = operand ∧
      decode (op :: (operand ++ rest))
        = .command (if op = 0x03 then .confirmPresent a else .loadAddress a) rest) ∧
  (∀ (op : Byte) (rest : List Byte), op ≠ 0x03 → op ≠ 0x04 →
    decode (op :: rest) = .reserved op rest ∨ ∃ i : Instr, decode (op :: rest) = .command i rest) ∧
  (∀ (s : State) (op : Byte) (operand : List Byte), (op = 0x03 ∨ op = 0x04) → operand.length < 8 →
    s.Idle → s.resetRequest = false → s.port = op :: operand → step s = .next s)

/-- When the bytes at the port of an idle block decode to a command, the step consumes exactly its bytes and runs
it (R84, R178; spec/20_memory.md R66). -/
def Obligations.StepRunsTheDecodedCommand : Prop :=
  ∀ (s : State) (i : Instr) (rest : List Byte), s.Idle → s.resetRequest = false →
    decode s.port = .command i rest → step s = exec i { s with port := rest }

/-- R178: while BUSY is 1 no command is accepted. That one presented to `exec` anyway is refused by name, and that in
a step of the machine the bytes at the port wait, is the model's treatment (log entry 9), which R178 and
spec/93_implementation_defined.md U1 offer. -/
def Obligations.BusyBlockAcceptsNoCommand : Prop :=
  (∀ (i : Instr) (s : State), s.busy = true → exec i s = .refused .commandWhileBusy) ∧
  (∀ s t : State, s.busy = true → s.resetRequest = false → step s = .next t →
    t.port = s.port ∧ acceptances t.history = acceptances s.history)

/-! ### Reset, invariants and the transport -/

/-- R32, R190, R191: reset puts every register at its reset value, also while a command runs, which is then
abandoned without a response; it issues no transport primitive and leaves the bus as it stood. That the host
asserts reset through a field of the state is the model's form (log entry 10). -/
def Obligations.ResetPutsRegistersAtResetValues : Prop :=
  (∀ p : Params,
    (State.resetWith p).addr = Address.zero ∧ (State.resetWith p).srch = Address.zero ∧
    (State.resetWith p).ld = 0 ∧ (State.resetWith p).lastDevice = false ∧
    (State.resetWith p).matchSeen = false ∧ (State.resetWith p).count = 0 ∧
    (State.resetWith p).result = .noDevice ∧ (State.resetWith p).pin = p.busPin ∧
    (State.resetWith p).busy = false) ∧
  (∀ s : State, s.resetRequest = true → ∃ t : State, step s = .next t ∧
    t.addr = Address.zero ∧ t.srch = Address.zero ∧ t.ld = 0 ∧ t.lastDevice = false ∧
    t.matchSeen = false ∧ t.count = 0 ∧ t.result = .noDevice ∧ t.pin = s.params.busPin ∧
    t.busy = false ∧ t.params = s.params ∧ t.line = s.line ∧ t.history = s.history)

/-- The invariant holds right after reset, for every value of the parameters (R31, R32). -/
def Obligations.InvariantHoldsAfterReset : Prop :=
  ∀ p : Params, (State.resetWith p).Inv

/-- Every step keeps the invariant: PIN is BUS_PIN (R27); LAST_DEVICE implies LD = 0 (R31 (b)); the control point
is one R114 can reach; between commands the iterator is rewound, or its path is of the target family with
MATCH_SEEN set (R31 (c), (e), R133). -/
def Obligations.StepKeepsTheInvariant : Prop :=
  ∀ s t : State, s.Inv → step s = .next t → t.Inv

/-- R194, R27: no step and no command changes a parameter, and PIN changes only at reset. -/
def Obligations.ParametersAndPinAreConstant : Prop :=
  (∀ s t : State, step s = .next t → t.params = s.params ∧ (s.resetRequest = false → t.pin = s.pin)) ∧
  (∀ (i : Instr) (s t : State), exec i s = .next t → t.params = s.params ∧ t.pin = s.pin)

/-- R53, R63: the block takes the transport's answers one for one in their order, merging, repeating, dropping
and reordering none, and its history only grows: what was answered so far and what is still to come make the same
sequence before and after every step, and so do the writes completed and those still to be completed. -/
def Obligations.TransportAnswersAreTakenInOrder : Prop :=
  ∀ (s t : State) (answers : List Bool) (writes : Nat), s.line = .script answers writes → step s = .next t →
    ∃ answers' writes' new, t.line = .script answers' writes' ∧ t.history = new ++ s.history ∧
      answersIn t.history ++ answers' = answersIn s.history ++ answers ∧
      writesIn t.history + writes' = writesIn s.history + writes

/-- R29, R52: a command that waited for the transport, at a read or at a write, and goes on when more answers and
completions come ends in the very outcome it would have had with all of them there at once. That the model stores the
control point is its own choice (log entry 5). -/
def Obligations.ResumedCommandEqualsUninterrupted : Prop :=
  ∀ (i : Instr) (s u : State) (early late : List Bool) (m n : Nat), s.resetRequest = false →
    exec i { s with line := .script early m } = .next u → u.busy = true →
    ∃ (left : List Bool) (k : Nat), u.line = .script left k ∧ (left = [] ∨ k = 0) ∧
      step { u with line := .script (left ++ late) (k + n) }
        = exec i { s with line := .script (early ++ late) (m + n) }

/-- R52, R207: with no answer from the transport FULL_SCAN and CONFIRM_PRESENT, and STEP_NEXT on an iterator that
is not exhausted, do not respond: BUSY is 1, and every further step leaves the block as it is. -/
def Obligations.SilentTransportKeepsTheBlockBusy : Prop :=
  ∀ (i : Instr) (s : State) (writes : Nat),
    (i = .fullScan ∨ (i = .stepNext ∧ s.lastDevice = false) ∨ ∃ a, i = .confirmPresent a) →
    s.Idle → s.resetRequest = false → s.line = .script [] writes →
    ∃ t : State, exec i s = .next t ∧ t.busy = true ∧ t.result = s.result ∧ t.addr = s.addr ∧
      step t = .next t

/-- R52: every one of the four primitives blocks. While the transport has not completed the primitive a command waits
for, be it a read or a write, a step leaves the block exactly as it is; and a command can come to wait for each of
them: T_RESET, T_WRITE_BYTE, either T_READ_BIT and T_WRITE_BIT. That the point is stored, and that completed writes
are counted in the line, is the model's form (log entries 5 and 16). -/
def Obligations.PendingPrimitiveBlocksTheCommand : Prop :=
  (∀ (s : State) (task : BusTask) (point : Await) (answers : List Bool) (writes : Nat),
    s.control = .running task point → point.legal = true → point.inSearch = true → s.resetRequest = false →
    s.line = .script answers writes → (if point.isWrite then writes = 0 else answers = []) →
    step s = .next s) ∧
  (∀ s : State, s.Idle →
    (∃ t : State, exec .fullScan { s with line := .script [] 0 } = .next t ∧
      t.control = .running (.fullScan 0) .presence) ∧
    (∃ t : State, exec .fullScan { s with line := .script [true] 0 } = .next t ∧
      t.control = .running (.fullScan 0) .command) ∧
    (∃ t : State, exec .fullScan { s with line := .script [true] 1 } = .next t ∧
      t.control = .running (.fullScan 0) (.value 1 0)) ∧
    (∃ t : State, exec .fullScan { s with line := .script [true, false] 1 } = .next t ∧
      t.control = .running (.fullScan 0) (.complement 1 0 false)) ∧
    (∃ t : State, exec .fullScan { s with line := .script [true, false, false] 1 } = .next t ∧
      t.control = .running (.fullScan 0) (.direction 1 1 false)))

/-! ### The checksum engine -/

/-- R103: an address is valid when the checksum of bytes 0 to 6 is byte 7; equivalently the checksum of all 8
bytes is 00; feeding its own checksum drives the register to zero for every string; and the all-zero address is
valid. -/
def Obligations.ChecksumValidatesAddresses : Prop :=
  (∀ s : List Byte, crc8 (s ++ [crc8 s]) = 0) ∧
  (∀ a : Address, valid a = true ↔ crc8 [a.b0, a.b1, a.b2, a.b3, a.b4, a.b5, a.b6] = a.b7) ∧
  (∀ a : Address, valid a = true ↔ crc8 a.toBytes = 0) ∧
  valid Address.zero = true

/-- R102: the checksum is linear: of the bytewise XOR of two strings of equal length it is the XOR of their
checksums. -/
def Obligations.ChecksumIsLinear : Prop :=
  ∀ s t : List Byte, s.length = t.length →
    crc8 (List.zipWith (fun x y => x ^^^ y) s t) = crc8 s ^^^ crc8 t

/-- R104: flipping any one of the 56 bits of bytes 0 to 6 changes their checksum, so that one flipped bit anywhere
in a valid address is always detected; the syndromes of the bits of byte 0 are those the rule lists; and two
different valid addresses can carry the same checksum byte. -/
def Obligations.SingleBitFlipIsDetected : Prop :=
  (∀ (a : Address) (k : Nat), 1 ≤ k → k ≤ 56 →
    crc8 (checkedBytes (setAbit a k (!abit a k))) ≠ crc8 (checkedBytes a)) ∧
  (∀ (a : Address) (k : Nat), 1 ≤ k → k ≤ 64 → valid a = true → valid (setAbit a k (!abit a k)) = false) ∧
  (List.range' 1 8).map (fun k => crc8 (checkedBytes (setAbit Address.zero k true)))
    = [0x3D, 0x7A, 0xF4, 0xF1, 0xFB, 0xEF, 0xC7, 0x97] ∧
  (∃ a b : Address, a ≠ b ∧ valid a = true ∧ valid b = true ∧ crcByte a = crcByte b)

/-- R100: the corner cases and the worked example: the empty string and any number of zero bytes give 00. -/
def Obligations.ChecksumCornerCases : Prop :=
  crc8 [] = 0x00 ∧ (∀ n : Nat, crc8 (List.replicate n 0x00) = 0x00) ∧
  crc8 [0x02, 0x1C, 0xB8, 0x01, 0x00, 0x00, 0x00] = 0xA2

/-- R101: the constant of the right-shifting loop is the bit reversal of 31. -/
def Obligations.ReflectedPolynomialIsTheReversal : Prop :=
  Config.crcPolyReflected = 0x8C ∧
  ∀ j ∈ List.range 8, Config.crcPolyReflected.getLsbD j = (0x31 : Byte).getLsbD (7 - j)

/-! ### LOAD_ADDRESS, RESTART and the getters -/

/-- R144: LOAD_ADDRESS on an idle block: with a correct checksum ADDR takes the operand and RESULT is SUCCESS,
else ADDR is all zero and RESULT is CRC_MISMATCH; the response carries the code; no other register and no
transport primitive. -/
def Obligations.LoadAddressResult : Prop :=
  ∀ (a : Address) (s : State), s.Idle →
    exec (.loadAddress a) s = .next
      (if crc8 [a.b0, a.b1, a.b2, a.b3, a.b4, a.b5, a.b6] = a.b7 then
        { s with addr := a, result := .success
                 history := .response .ack [0x00] :: .accepted 0x04 a.toBytes :: s.history }
      else
        { s with addr := Address.zero, result := .crcMismatch
                 history := .response .ack [0x03] :: .accepted 0x04 a.toBytes :: s.history })

/-- R145: (a) a valid address loads with SUCCESS and GET_ADDRESS then returns it; (b) a valid address with any one
of its first 56 bits flipped is rejected with CRC_MISMATCH; (c) RESULT and ADDR depend on the operand alone. -/
def Obligations.LoadAddressRoundTrip : Prop :=
  (∀ (a : Address) (s : State), s.Idle → valid a = true →
    ∃ t u : State, exec (.loadAddress a) s = .next t ∧ t.result = .success ∧
      exec .getAddress t = .next u ∧ u.history.head? = some (.response .ack a.toBytes)) ∧
  (∀ (a : Address) (k : Nat) (s : State), s.Idle → valid a = true → 1 ≤ k → k ≤ 56 →
    ∃ t : State, exec (.loadAddress (setAbit a k (!abit a k))) s = .next t ∧ t.result = .crcMismatch) ∧
  (∀ (a : Address) (s s' : State), s.Idle → s'.Idle →
    ∃ t t' : State, exec (.loadAddress a) s = .next t ∧ exec (.loadAddress a) s' = .next t' ∧
      t.result = t'.result ∧ t.addr = t'.addr)

/-- R120, R110: RESTART clears SRCH, LD and LAST_DEVICE, responds ACK with an empty payload, and changes nothing
else; it issues no primitive. -/
def Obligations.RestartRewindsTheIterator : Prop :=
  ∀ s : State, s.Idle →
    exec .restart s = .next
      { s with srch := Address.zero, ld := 0, lastDevice := false
               history := .response .ack [] :: .accepted 0x05 [] :: s.history }

/-- R150 to R154: GET_RESULT, GET_COUNT, GET_FAMILY, GET_ID and GET_PIN respond with their register. -/
def Obligations.RegisterGettersRespond : Prop :=
  ∀ s : State, s.Idle →
    exec .getResult s = .next
      { s with
        history := .response .ack [match s.result with
          | .success => 0x00 | .endOfEnum => 0x01 | .noDevice => 0x02 | .crcMismatch => 0x03]
          :: .accepted 0x10 [] :: s.history } ∧
    exec .getCount s = .next
      { s with history := .response .ack [s.count] :: .accepted 0x11 [] :: s.history } ∧
    exec .getFamily s = .next
      { s with history := .response .ack [s.addr.b0] :: .accepted 0x12 [] :: s.history } ∧
    exec .getId s = .next
      { s with
        history := .response .ack
          [[s.addr.b1, s.addr.b2, s.addr.b3, s.addr.b4, s.addr.b5, s.addr.b6].getD (s.params.idByteIndex - 1) 0]
          :: .accepted 0x13 [] :: s.history } ∧
    exec .getPin s = .next
      { s with history := .response .ack [s.pin] :: .accepted 0x14 [] :: s.history }

/-- R155, R156: GET_ADDRESS responds with the 8 bytes of ADDR, byte 0 first, and GET_SERIAL with bytes 1 to 6. -/
def Obligations.CopyOutGettersRespond : Prop :=
  ∀ s : State, s.Idle →
    exec .getAddress s = .next
      { s with
        history := .response .ack
          [s.addr.b0, s.addr.b1, s.addr.b2, s.addr.b3, s.addr.b4, s.addr.b5, s.addr.b6, s.addr.b7]
          :: .accepted 0x15 [] :: s.history } ∧
    exec .getSerial s = .next
      { s with history := .response .ack [s.addr.b1, s.addr.b2, s.addr.b3, s.addr.b4, s.addr.b5, s.addr.b6]
        :: .accepted 0x16 [] :: s.history }

/-- R157, R158: GET_IS_SUCCESS responds 01 when RESULT is SUCCESS and else 00; GET_IS_ERROR responds 01 when RESULT
is NO_DEVICE or CRC_MISMATCH and else 00. -/
def Obligations.PredicateGettersRespond : Prop :=
  ∀ s : State, s.Idle →
    exec .getIsSuccess s = .next
      { s with history := .response .ack [if s.result = .success then 0x01 else 0x00]
        :: .accepted 0x17 [] :: s.history } ∧
    exec .getIsError s = .next
      { s with
        history := .response .ack
          [if s.result = .noDevice ∨ s.result = .crcMismatch then 0x01 else 0x00]
          :: .accepted 0x18 [] :: s.history }

/-- R149: on an idle block each of the nine getters answers ACK with a payload, changes no register and issues no
transport primitive; a second one of the same kind right after it gives the same payload. -/
def Obligations.GettersChangeNothing : Prop :=
  ∀ (i : Instr) (s : State),
    i ∈ [Instr.getResult, .getCount, .getFamily, .getId, .getPin, .getAddress, .getSerial, .getIsSuccess,
      .getIsError] →
    s.Idle →
    ∃ (payload : List Byte) (t : State),
      exec i s = .next t ∧
      t = { s with history := .response .ack payload :: .accepted i.opcode [] :: s.history } ∧
      exec i t = .next { t with history := .response .ack payload :: .accepted i.opcode [] :: t.history }

/-! ### The iterator -/

/-- R110, R112: what ITER_RESTART and ITER_TARGET write, and that they write nothing else. -/
def Obligations.IteratorSetupWrites : Prop :=
  (∀ s : State, s.iterRestart = { s with srch := ⟨0, 0, 0, 0, 0, 0, 0, 0⟩, ld := 0, lastDevice := false }) ∧
  (∀ (f : Byte) (s : State),
    s.iterTarget f = { s with srch := ⟨f, 0, 0, 0, 0, 0, 0, 0⟩, ld := 64, lastDevice := false })

/-- R114: with presence, 64 pairs of reads of which none is (1, 1), and 65 completed writes, the step yields. At
each position the address follows the bus where the reads differ, and at a discrepancy SRCH before LD, the 1-branch
at LD and the 0-branch beyond; LD becomes the deepest position where the 0-branch was taken at a discrepancy, or 0,
and LAST_DEVICE is set exactly when it is 0. -/
def Obligations.IterStepFollowsTheAnswers : Prop :=
  ∀ (s : State) (pairs : List (Bool × Bool)) (rest : List Bool) (writes : Nat),
    s.lastDevice = false → pairs.length = 64 → (∀ p ∈ pairs, p ≠ (true, true)) →
    s.line = .script (true :: (pairAnswers pairs ++ rest)) (writes + 65) →
    ∃ t : State, iterStep s = .found t ∧ t.line = .script rest writes ∧ t.addr = t.srch ∧
      (∀ k b c, 1 ≤ k → k ≤ 64 → pairs[k - 1]? = some (b, c) →
        abit t.addr k =
          if b ≠ c then b else if k < s.ld.val then abit s.srch k else decide (k = s.ld.val)) ∧
      (∀ k, 1 ≤ k → k ≤ 64 → pairs[k - 1]? = some (false, false) → abit t.addr k = false → k ≤ t.ld.val) ∧
      (t.ld ≠ 0 → pairs[t.ld.val - 1]? = some (false, false) ∧ abit t.addr t.ld.val = false) ∧
      (t.lastDevice = true ↔ t.ld = 0)

/-- R53, R63, R93: the primitives of a step that yields, in exactly the order they are issued: T_RESET, the one byte
SEARCH_CMD, and then for each position 1 to 64 two reads and the write of the direction. -/
def Obligations.IterStepIssuesPrimitivesInOrder : Prop :=
  ∀ (s t : State) (pairs : List (Bool × Bool)) (rest : List Bool) (writes : Nat),
    s.lastDevice = false → pairs.length = 64 → s.line = .script (true :: (pairAnswers pairs ++ rest)) writes →
    iterStep s = .found t →
    t.history = (.tReset true :: .tWriteByte s.params.searchCmd :: positionEvents t.addr 1 pairs).reverse ++
      s.history

/-- R115: the three ways to "not found". (a) LAST_DEVICE: no primitive; (b) no presence pulse: one primitive; (c)
both reads at some position are 1. In all three the iterator is left rewound and ADDR unchanged. -/
def Obligations.IterStepReportsNotFound : Prop :=
  (∀ s : State, s.lastDevice = true →
    ∃ t : State, iterStep s = .notFound t ∧ t.Rewound ∧ t.addr = s.addr ∧ t.history = s.history ∧
      t.line = s.line) ∧
  (∀ (s : State) (rest : List Bool) (writes : Nat), s.lastDevice = false → s.line = .script (false :: rest) writes →
    ∃ t : State, iterStep s = .notFound t ∧ t.Rewound ∧ t.addr = s.addr ∧
      t.history = .tReset false :: s.history ∧ t.line = .script rest writes) ∧
  (∀ (s : State) (pairs : List (Bool × Bool)) (rest : List Bool) (writes : Nat),
    s.lastDevice = false → pairs.length < 64 → (∀ p ∈ pairs, p ≠ (true, true)) →
    s.line = .script (true :: (pairAnswers pairs ++ true :: true :: rest)) (writes + pairs.length + 1) →
    ∃ t : State, iterStep s = .notFound t ∧ t.Rewound ∧ t.addr = s.addr ∧ t.line = .script rest writes)

/-- R62: the transport primitives of one ITER_STEP: 194 when it yields; otherwise none after LAST_DEVICE, one, the
reset without presence, or 2 + 3(k - 1) + 2 when it aborts at position k, whose second read is the last of them. -/
def Obligations.IterStepPrimitiveCounts : Prop :=
  ∀ s : State,
    (∀ t : State, iterStep s = .found t → primitives t.history = primitives s.history + 194) ∧
    (∀ t : State, iterStep s = .notFound t →
      (s.lastDevice = true ∧ primitives t.history = primitives s.history) ∨
      (s.lastDevice = false ∧
        ((t.history.head? = some (.tReset false) ∧ primitives t.history = primitives s.history + 1) ∨
          ∃ k : Nat, 1 ≤ k ∧ k ≤ 64 ∧ t.history.head? = some (.tReadBit true) ∧
            primitives t.history = primitives s.history + (2 + 3 * (k - 1) + 2))))

/-- R55, R123: whatever the transport answers, an ITER_STEP ends, as soon as there are answers for one reset and 128
reads and completions for 65 writes; on the ideal bus it always ends; and it never issues more than 194 primitives. -/
def Obligations.IterStepEndsWhateverIsAnswered : Prop :=
  ∀ s : State,
    (∀ (answers : List Bool) (writes : Nat), s.line = .script answers writes → 129 ≤ answers.length → 65 ≤ writes →
      ∃ t : State, iterStep s = .found t ∨ iterStep s = .notFound t) ∧
    (∀ bus : IdealBus, s.line = .ideal bus → ∃ t : State, iterStep s = .found t ∨ iterStep s = .notFound t) ∧
    (∀ t : State, (iterStep s = .found t ∨ iterStep s = .notFound t) →
      primitives t.history ≤ primitives s.history + 194)

/-- R114, R20: the registers an ITER_STEP leaves alone, from whatever point it goes on and whatever the transport
answers. ADDR changes only on a yield, where it becomes SRCH; "not found" leaves the iterator rewound. -/
def Obligations.IterStepFrame : Prop :=
  ∀ (point : Await) (s : State),
    (∀ t : State, iterFrom point s = .found t →
      t.addr = t.srch ∧ t.count = s.count ∧ t.result = s.result ∧ t.matchSeen = s.matchSeen ∧
      t.params = s.params ∧ t.pin = s.pin ∧ t.control = s.control ∧ t.port = s.port) ∧
    (∀ t : State, iterFrom point s = .notFound t →
      t.addr = s.addr ∧ t.Rewound ∧ t.count = s.count ∧ t.result = s.result ∧
      t.matchSeen = s.matchSeen ∧ t.params = s.params ∧ t.pin = s.pin ∧ t.control = s.control ∧
      t.port = s.port)

/-- R58, R93: the reads at a position of the ideal bus are a wired AND. The first is 1 when every participant has 1
there, the second when every one has 0, and both are 1 when nobody takes part; the write keeps those whose bit is
the direction. -/
def Obligations.IdealBusReadsAreAWiredAnd : Prop :=
  ∀ (bus : IdealBus) (d : Bool), bus.searching = true → 1 ≤ bus.position → bus.position ≤ 64 → bus.phase = .value →
    (bus.readBit.1 = true ↔ ∀ a ∈ bus.participants, abit a bus.position = true) ∧
    (bus.readBit.2.readBit.1 = true ↔ ∀ a ∈ bus.participants, abit a bus.position = false) ∧
    ((bus.readBit.1 = true ∧ bus.readBit.2.readBit.1 = true) ↔ bus.participants = []) ∧
    (bus.readBit.2.readBit.2.writeBit d).participants
      = bus.participants.filter (fun a => abit a bus.position == d) ∧
    (bus.readBit.2.readBit.2.writeBit d).position = bus.position + 1

/-- R118: on an ideal bus with a fixed population of distinct addresses, from a rewound iterator, the steps yield
every address once in increasing tree order, the last one setting LAST_DEVICE; the step after that reports "not
found" without bus traffic (on an empty bus, after one T_RESET) and rewinds; and the step after that yields the
first address again. -/
def Obligations.IteratorVisitsEveryDeviceInTreeOrder : Prop :=
  ∀ (s : State) (population : List Address), s.OnIdealBus population → population.Nodup → s.Rewound →
    ∃ (yields : List Address) (u v : State),
      yields.Perm population ∧ yields.Pairwise treeLt ∧
      iterYields yields.length s = some (yields, u) ∧
      (population ≠ [] → u.lastDevice = true) ∧
      iterStep u = .notFound v ∧ v.Rewound ∧ v.OnIdealBus population ∧
      v.history = (if population = [] then .tReset false :: u.history else u.history) ∧
      (∀ a : Address, yields.head? = some a → ∃ w : State, iterStep v = .found w ∧ w.addr = a)

/-- R119, R122: the first step after ITER_TARGET(f) on an ideal bus. With a device of family f it yields one, with
no other device of the family before it in tree order, but for the twin that differs at position 64 alone, which
the 1-branch taken there skips; with none it still yields some device; on an empty bus it reports "not found". -/
def Obligations.TargetedStepLandsInTheFamily : Prop :=
  ∀ (s : State) (population : List Address) (f : Byte), s.OnIdealBus population → population.Nodup →
    ((∃ a ∈ population, family a = f) →
      ∃ t : State, iterStep (s.iterTarget f) = .found t ∧ t.addr ∈ population ∧ family t.addr = f ∧
        ∀ b ∈ population, family b = f → b ≠ t.addr →
          (agreeTo63 t.addr b ∧ abit t.addr 64 = true) ∨ (¬ agreeTo63 t.addr b ∧ treeLt t.addr b)) ∧
    (population ≠ [] → ∃ t : State, iterStep (s.iterTarget f) = .found t ∧ t.addr ∈ population) ∧
    (population = [] → ∃ t : State, iterStep (s.iterTarget f) = .notFound t)

/-- R122: of two devices that differ at position 64 alone, which are never both valid, the targeted step yields the
one with 1 there and exhausts the tree, so that the other is skipped for that pass. -/
def Obligations.TargetedStepSkipsTheTwin : Prop :=
  ∀ (s : State) (a b : Address) (f : Byte), agreeTo63 a b → abit a 64 = false → abit b 64 = true →
    s.OnIdealBus [a, b] →
    ¬ (valid a = true ∧ valid b = true) ∧
    ∃ t : State, iterStep (s.iterTarget f) = .found t ∧ t.addr = b ∧ t.lastDevice = true

/-! ### The three commands that drive the iterator -/

/-- R172, R131, R133, R141: when T_RESET finds no presence on the first step, the three commands end after that one
primitive: FULL_SCAN with a count of 0, STEP_NEXT with END_OF_ENUM or NO_DEVICE as MATCH_SEEN says, CONFIRM_PRESENT
with NO_DEVICE; each leaves the iterator rewound and ADDR as it was. -/
def Obligations.NoPresenceEndsTheBusCommands : Prop :=
  ∀ (s : State) (rest : List Bool) (writes : Nat) (a : Address), s.Idle → s.line = .script (false :: rest) writes →
    exec .fullScan s = .next
      { s with srch := Address.zero, ld := 0, lastDevice := false, count := 0, result := .noDevice
               line := .script rest writes
               history := .response .ack [0x02] :: .tReset false :: .accepted 0x01 [] :: s.history } ∧
    (s.lastDevice = false → exec .stepNext s = .next
      { s with srch := Address.zero, ld := 0, lastDevice := false, matchSeen := false
               result := if s.matchSeen then .endOfEnum else .noDevice
               line := .script rest writes
               history := .response .ack [if s.matchSeen then 0x01 else 0x02] :: .tReset false ::
                 .accepted 0x02 [] :: s.history }) ∧
    exec (.confirmPresent a) s = .next
      { s with srch := Address.zero, ld := 0, lastDevice := false, result := .noDevice
               line := .script rest writes
               history := .response .ack [0x02] :: .tReset false :: .accepted 0x03 a.toBytes :: s.history }

/-- R133, R115 (a): a STEP_NEXT after the last device reports END_OF_ENUM, or NO_DEVICE when the pass saw no match,
without bus traffic; it clears MATCH_SEEN and rewinds. -/
def Obligations.StepNextAfterTheLastDevice : Prop :=
  ∀ s : State, s.Idle → s.lastDevice = true →
    exec .stepNext s = .next
      { s with srch := Address.zero, ld := 0, lastDevice := false, matchSeen := false
               result := if s.matchSeen then .endOfEnum else .noDevice
               history := .response .ack [if s.matchSeen then 0x01 else 0x02] :: .accepted 0x02 [] :: s.history }

/-- R131, R31 (c): a FULL_SCAN that has responded, whatever the bus did: the iterator is rewound, RESULT is SUCCESS
with a count of at least 1 or NO_DEVICE with a count of 0, and MATCH_SEEN is as it was. While it has not responded,
COUNT and RESULT are as they were. -/
def Obligations.FullScanCompletedState : Prop :=
  ∀ s t : State, exec .fullScan s = .next t →
    t.matchSeen = s.matchSeen ∧
    (t.busy = false → t.Rewound ∧
      ((t.result = .success ∧ t.count ≠ 0) ∨ (t.result = .noDevice ∧ t.count = 0))) ∧
    (t.busy = true → t.count = s.count ∧ t.result = s.result)

/-- R132, R131: FULL_SCAN on an ideal bus with distinct devices, fewer than 256 of them qualifying, from any iterator
state: it responds; COUNT is the number of qualifying devices; RESULT is SUCCESS when that is not 0 and else
NO_DEVICE; ADDR holds the last device in tree order, qualifying or not, or its old value on an empty bus; the
iterator is rewound; it issued 194 primitives a device, or 1 on an empty bus. -/
def Obligations.FullScanCountsQualifyingDevices : Prop :=
  ∀ (s : State) (population : List Address), s.Idle → s.OnIdealBus population → population.Nodup →
    population.countP (qualifies s.params) < 256 →
    ∃ t : State, exec .fullScan s = .next t ∧ t.Idle ∧ t.Rewound ∧ t.OnIdealBus population ∧
      t.count.toNat = population.countP (qualifies s.params) ∧
      t.result = (if population.countP (qualifies s.params) = 0 then .noDevice else .success) ∧
      t.matchSeen = s.matchSeen ∧
      (population = [] → t.addr = s.addr) ∧
      (population ≠ [] → t.addr ∈ population ∧ ∀ b ∈ population, b ≠ t.addr → treeLt b t.addr) ∧
      primitives t.history = primitives s.history +
        (if population = [] then 1 else 194 * population.length)

/-- R25, spec/93_implementation_defined.md U5: a FULL_SCAN that would count a 256th qualifying device is refused by
name, here on an ideal bus that holds that many. -/
def Obligations.FullScanRefusesA256thDevice : Prop :=
  ∀ (s : State) (population : List Address), s.Idle → s.OnIdealBus population → population.Nodup →
    256 ≤ population.countP (qualifies s.params) → exec .fullScan s = .refused .countOverflow

/-- R133, R31 (c), (e): a STEP_NEXT that has responded, whatever the bus did: either RESULT is SUCCESS, MATCH_SEEN is
set, and SRCH equals ADDR, which is of the target family; or RESULT is END_OF_ENUM or NO_DEVICE as MATCH_SEEN was
before, MATCH_SEEN is cleared and the iterator is rewound. COUNT is never written. -/
def Obligations.StepNextCompletedState : Prop :=
  ∀ s t : State, exec .stepNext s = .next t →
    t.count = s.count ∧
    (t.busy = false →
      (t.result = .success ∧ t.matchSeen = true ∧ t.srch = t.addr ∧ t.addr.b0 = s.params.targetFamily) ∨
      (t.result = (if s.matchSeen then .endOfEnum else .noDevice) ∧ t.matchSeen = false ∧ t.Rewound)) ∧
    (t.busy = true → t.matchSeen = s.matchSeen ∧ t.result = s.result)

/-- R133, R134, R203: STEP_NEXT from a rewound iterator on an ideal bus, whatever MATCH_SEEN is. With a device of the
target family it answers SUCCESS with the first of them in tree order in ADDR and sets MATCH_SEEN; with none it
answers END_OF_ENUM or NO_DEVICE as MATCH_SEEN says, clears it and leaves the iterator rewound. -/
def Obligations.StepNextFromARewoundIterator : Prop :=
  ∀ (s : State) (population : List Address), s.Idle → s.OnIdealBus population → population.Nodup → s.Rewound →
    ((∃ a ∈ population, family a = s.params.targetFamily) →
      ∃ t : State, exec .stepNext s = .next t ∧ t.Idle ∧ t.OnIdealBus population ∧ t.result = .success ∧
        t.matchSeen = true ∧ t.count = s.count ∧ t.srch = t.addr ∧
        t.addr ∈ population ∧ family t.addr = s.params.targetFamily ∧
        (∀ b ∈ population, family b = s.params.targetFamily → b ≠ t.addr → treeLt t.addr b) ∧
        t.history.head? = some (.response .ack [0x00])) ∧
    ((∀ a ∈ population, family a ≠ s.params.targetFamily) →
      ∃ t : State, exec .stepNext s = .next t ∧ t.Idle ∧ t.OnIdealBus population ∧ t.Rewound ∧
        t.result = (if s.matchSeen then .endOfEnum else .noDevice) ∧ t.matchSeen = false ∧ t.count = s.count)

/-- R134: STEP_NEXT on an ideal bus with a fixed population, from a rewound iterator with MATCH_SEEN = 0: the devices
of the target family are returned one a call, in tree order, then END_OF_ENUM, and the state is again the one it
began from; with no such device every call returns NO_DEVICE. -/
def Obligations.StepNextVisitsTheTargetFamily : Prop :=
  ∀ (s : State) (population : List Address), s.Idle → s.OnIdealBus population → population.Nodup →
    s.Rewound → s.matchSeen = false →
    ((∃ a ∈ population, family a = s.params.targetFamily) →
      ∃ (visited : List Address) (last : Address) (u : State),
        visited.Perm (population.filter fun a => family a == s.params.targetFamily) ∧
        visited.Pairwise treeLt ∧
        stepNextCalls (visited.length + 1) s
          = some (visited.map (fun a => (.success, a)) ++ [(.endOfEnum, last)], u) ∧
        u.Idle ∧ u.Rewound ∧ u.matchSeen = false ∧ u.OnIdealBus population) ∧
    ((∀ a ∈ population, family a ≠ s.params.targetFamily) →
      ∃ t : State, exec .stepNext s = .next t ∧ t.Idle ∧ t.result = .noDevice ∧ t.Rewound ∧
        t.matchSeen = false ∧ t.OnIdealBus population)

/-- R141, R31 (c): a CONFIRM_PRESENT that has responded, whatever the bus did: the iterator is rewound, and RESULT is
SUCCESS with an address in ADDR that passes the match test, or NO_DEVICE. COUNT and MATCH_SEEN are never written. -/
def Obligations.ConfirmPresentCompletedState : Prop :=
  ∀ (a : Address) (s t : State), exec (.confirmPresent a) s = .next t →
    t.count = s.count ∧ t.matchSeen = s.matchSeen ∧
    (t.busy = false → t.Rewound ∧
      ((t.result = .success ∧
          crc8 [t.addr.b0, t.addr.b1, t.addr.b2, t.addr.b3, t.addr.b4, t.addr.b5, t.addr.b6] = t.addr.b7 ∧
          t.addr.b7 = a.b7 ∧ (s.params.presentCompare = .full → t.addr = a)) ∨
        t.result = .noDevice)) ∧
    (t.busy = true → t.result = s.result)

/-- R143: CONFIRM_PRESENT on an ideal bus. (a) A valid device of the target family that is on the bus is confirmed
under both settings of PRESENT_COMPARE, but for the corner of R122: no second device may equal it at positions 1 to
63 unless its own bit at position 64 is 1. (b) Under `full` an absent address gives NO_DEVICE. -/
def Obligations.ConfirmPresentOnTheIdealBus : Prop :=
  ∀ (s : State) (population : List Address) (a : Address), s.Idle → s.OnIdealBus population →
    population.Nodup →
    (a ∈ population → valid a = true → family a = s.params.targetFamily →
      (abit a 64 = true ∨ ∀ b ∈ population, agreeTo63 a b → b = a) →
      ∃ t : State, exec (.confirmPresent a) s = .next t ∧ t.Idle ∧ t.Rewound ∧ t.result = .success ∧
        (s.params.presentCompare = .full → t.addr = a)) ∧
    (a ∉ population → s.params.presentCompare = .full →
      ∃ t : State, exec (.confirmPresent a) s = .next t ∧ t.Idle ∧ t.Rewound ∧ t.result = .noDevice)

/-- R208, R143 (d): the family restriction leaks. CONFIRM_PRESENT can answer SUCCESS with a device of another family
in ADDR, on an ideal bus that holds no device of the target family. -/
def Obligations.FamilyRestrictionLeaks : Prop :=
  ∃ (s t : State) (population : List Address) (a : Address), s.Idle ∧ s.OnIdealBus population ∧
    (∀ b ∈ population, family b ≠ s.params.targetFamily) ∧
    exec (.confirmPresent a) s = .next t ∧ t.result = .success ∧ family t.addr ≠ s.params.targetFamily

/-! ### Rules of the whole machine -/

/-- The frame of the three commands that drive the iterator, whether they respond or wait: the parameters, PIN, the
port and the reset input are unchanged; the history only grows, above the acceptance of the command. -/
def Obligations.BusCommandFrame : Prop :=
  ∀ (i : Instr) (s t : State), (i = .fullScan ∨ i = .stepNext ∨ ∃ a, i = .confirmPresent a) →
    exec i s = .next t →
    t.params = s.params ∧ t.pin = s.pin ∧ t.port = s.port ∧ t.resetRequest = s.resetRequest ∧
    ∃ new, t.history = new ++ .accepted i.opcode i.operand :: s.history

/-- R86, R88: a command that ran to its end gave exactly one response, ACK with as many payload bytes as the table
says; one that still waits gave none. Either way it was accepted once. -/
def Obligations.EveryCommandEndsInOneResponse : Prop :=
  ∀ (i : Instr) (s t : State), exec i s = .next t →
    acceptances t.history = acceptances s.history + 1 ∧
    responses t.history = responses s.history + (if t.busy then 0 else 1) ∧
    (t.busy = false → ∃ payload : List Byte, payload.length = payloadLength i ∧
      t.history.head? = some (.response .ack payload))

/-- R170: each of the four operation commands, when it has responded, carries in its response the very code that
RESULT then holds; RESTART and the getters leave RESULT alone. -/
def Obligations.ResultCodeIsReported : Prop :=
  (∀ (i : Instr) (s t : State),
    (i = .fullScan ∨ i = .stepNext ∨ (∃ a, i = .confirmPresent a) ∨ ∃ a, i = .loadAddress a) →
    exec i s = .next t → t.busy = false →
    t.history.head? = some (.response .ack
      [match t.result with | .success => 0x00 | .endOfEnum => 0x01 | .noDevice => 0x02 | .crcMismatch => 0x03])) ∧
  (∀ (i : Instr) (s t : State),
    i ∈ [Instr.restart, .getResult, .getCount, .getFamily, .getId, .getPin, .getAddress, .getSerial,
      .getIsSuccess, .getIsError] →
    exec i s = .next t → t.result = s.result)

/-- R174: CRC_MISMATCH is set by LOAD_ADDRESS only, on an operand whose checksum is wrong: any other step that
leaves it in RESULT found it there. -/
def Obligations.CrcMismatchOnlyFromLoadAddress : Prop :=
  ∀ s t : State, step s = .next t → t.result = .crcMismatch →
    s.result = .crcMismatch ∨
    ∃ (a : Address) (rest : List Byte), s.Idle ∧ decode s.port = .command (.loadAddress a) rest ∧
      valid a = false

/-- R173: END_OF_ENUM is set by STEP_NEXT only, and only after a pass with at least one SUCCESS (MATCH_SEEN): any
other step that leaves it in RESULT found it there. -/
def Obligations.EndOfEnumOnlyFromStepNext : Prop :=
  ∀ s t : State, step s = .next t → t.result = .endOfEnum →
    s.result = .endOfEnum ∨
    (s.matchSeen = true ∧ ((∃ point, s.control = .running .stepNext point) ∨
      (s.Idle ∧ ∃ rest, decode s.port = .command .stepNext rest)))

/-- R20, R24, R25: the writers of ADDR, MATCH_SEEN and COUNT. FULL_SCAN alone writes COUNT, STEP_NEXT alone MATCH_SEEN,
and ADDR is written by the three commands that drive the iterator and by LOAD_ADDRESS. -/
def Obligations.RegisterWriters : Prop :=
  ∀ (i : Instr) (s t : State), exec i s = .next t →
    (i ≠ .fullScan → t.count = s.count) ∧
    (i ≠ .stepNext → t.matchSeen = s.matchSeen) ∧
    (i ≠ .fullScan → i ≠ .stepNext → (∀ a, i ≠ .confirmPresent a) → (∀ a, i ≠ .loadAddress a) →
      t.addr = s.addr ∧ t.line = s.line)
end

