-- ==== Sys2Proof/Laws/State.lean ====
section
/-! SUPPORT. What each update of the state does to each field, so that no later proof unfolds a record update. -/

namespace Sys2Proof.Machine

@[simp] theorem State.record_params (e : Event) (s : State) : (s.record e).params = s.params := rfl
@[simp] theorem State.record_addr (e : Event) (s : State) : (s.record e).addr = s.addr := rfl
@[simp] theorem State.record_srch (e : Event) (s : State) : (s.record e).srch = s.srch := rfl
@[simp] theorem State.record_ld (e : Event) (s : State) : (s.record e).ld = s.ld := rfl
@[simp] theorem State.record_lastDevice (e : Event) (s : State) : (s.record e).lastDevice = s.lastDevice := rfl
@[simp] theorem State.record_matchSeen (e : Event) (s : State) : (s.record e).matchSeen = s.matchSeen := rfl
@[simp] theorem State.record_count (e : Event) (s : State) : (s.record e).count = s.count := rfl
@[simp] theorem State.record_result (e : Event) (s : State) : (s.record e).result = s.result := rfl
@[simp] theorem State.record_pin (e : Event) (s : State) : (s.record e).pin = s.pin := rfl
@[simp] theorem State.record_control (e : Event) (s : State) : (s.record e).control = s.control := rfl
@[simp] theorem State.record_line (e : Event) (s : State) : (s.record e).line = s.line := rfl
@[simp] theorem State.record_port (e : Event) (s : State) : (s.record e).port = s.port := rfl
@[simp] theorem State.record_resetRequest (e : Event) (s : State) : (s.record e).resetRequest = s.resetRequest := rfl
@[simp] theorem State.record_history (e : Event) (s : State) : (s.record e).history = e :: s.history := rfl

@[simp] theorem State.respond_params (status : Status) (payload : List Byte) (s : State) : (s.respond status payload).params = s.params := rfl
@[simp] theorem State.respond_addr (status : Status) (payload : List Byte) (s : State) : (s.respond status payload).addr = s.addr := rfl
@[simp] theorem State.respond_srch (status : Status) (payload : List Byte) (s : State) : (s.respond status payload).srch = s.srch := rfl
@[simp] theorem State.respond_ld (status : Status) (payload : List Byte) (s : State) : (s.respond status payload).ld = s.ld := rfl
@[simp] theorem State.respond_lastDevice (status : Status) (payload : List Byte) (s : State) : (s.respond status payload).lastDevice = s.lastDevice := rfl
@[simp] theorem State.respond_matchSeen (status : Status) (payload : List Byte) (s : State) : (s.respond status payload).matchSeen = s.matchSeen := rfl
@[simp] theorem State.respond_count (status : Status) (payload : List Byte) (s : State) : (s.respond status payload).count = s.count := rfl
@[simp] theorem State.respond_result (status : Status) (payload : List Byte) (s : State) : (s.respond status payload).result = s.result := rfl
@[simp] theorem State.respond_pin (status : Status) (payload : List Byte) (s : State) : (s.respond status payload).pin = s.pin := rfl
@[simp] theorem State.respond_control (status : Status) (payload : List Byte) (s : State) : (s.respond status payload).control = .idle := rfl
@[simp] theorem State.respond_line (status : Status) (payload : List Byte) (s : State) : (s.respond status payload).line = s.line := rfl
@[simp] theorem State.respond_port (status : Status) (payload : List Byte) (s : State) : (s.respond status payload).port = s.port := rfl
@[simp] theorem State.respond_resetRequest (status : Status) (payload : List Byte) (s : State) : (s.respond status payload).resetRequest = s.resetRequest := rfl
@[simp] theorem State.respond_history (status : Status) (payload : List Byte) (s : State) : (s.respond status payload).history = .response status payload :: s.history := rfl

@[simp] theorem State.report_params (code : ResultCode) (s : State) : (s.report code).params = s.params := rfl
@[simp] theorem State.report_addr (code : ResultCode) (s : State) : (s.report code).addr = s.addr := rfl
@[simp] theorem State.report_srch (code : ResultCode) (s : State) : (s.report code).srch = s.srch := rfl
@[simp] theorem State.report_ld (code : ResultCode) (s : State) : (s.report code).ld = s.ld := rfl
@[simp] theorem State.report_lastDevice (code : ResultCode) (s : State) : (s.report code).lastDevice = s.lastDevice := rfl
@[simp] theorem State.report_matchSeen (code : ResultCode) (s : State) : (s.report code).matchSeen = s.matchSeen := rfl
@[simp] theorem State.report_count (code : ResultCode) (s : State) : (s.report code).count = s.count := rfl
@[simp] theorem State.report_result (code : ResultCode) (s : State) : (s.report code).result = code := rfl
@[simp] theorem State.report_pin (code : ResultCode) (s : State) : (s.report code).pin = s.pin := rfl
@[simp] theorem State.report_control (code : ResultCode) (s : State) : (s.report code).control = .idle := rfl
@[simp] theorem State.report_line (code : ResultCode) (s : State) : (s.report code).line = s.line := rfl
@[simp] theorem State.report_port (code : ResultCode) (s : State) : (s.report code).port = s.port := rfl
@[simp] theorem State.report_resetRequest (code : ResultCode) (s : State) : (s.report code).resetRequest = s.resetRequest := rfl
@[simp] theorem State.report_history (code : ResultCode) (s : State) : (s.report code).history = .response .ack [resultByte code] :: s.history := rfl

@[simp] theorem State.suspend_params (task : BusTask) (point : Await) (s : State) : (s.suspend task point).params = s.params := rfl
@[simp] theorem State.suspend_addr (task : BusTask) (point : Await) (s : State) : (s.suspend task point).addr = s.addr := rfl
@[simp] theorem State.suspend_srch (task : BusTask) (point : Await) (s : State) : (s.suspend task point).srch = s.srch := rfl
@[simp] theorem State.suspend_ld (task : BusTask) (point : Await) (s : State) : (s.suspend task point).ld = s.ld := rfl
@[simp] theorem State.suspend_lastDevice (task : BusTask) (point : Await) (s : State) : (s.suspend task point).lastDevice = s.lastDevice := rfl
@[simp] theorem State.suspend_matchSeen (task : BusTask) (point : Await) (s : State) : (s.suspend task point).matchSeen = s.matchSeen := rfl
@[simp] theorem State.suspend_count (task : BusTask) (point : Await) (s : State) : (s.suspend task point).count = s.count := rfl
@[simp] theorem State.suspend_result (task : BusTask) (point : Await) (s : State) : (s.suspend task point).result = s.result := rfl
@[simp] theorem State.suspend_pin (task : BusTask) (point : Await) (s : State) : (s.suspend task point).pin = s.pin := rfl
@[simp] theorem State.suspend_control (task : BusTask) (point : Await) (s : State) : (s.suspend task point).control = .running task point := rfl
@[simp] theorem State.suspend_line (task : BusTask) (point : Await) (s : State) : (s.suspend task point).line = s.line := rfl
@[simp] theorem State.suspend_port (task : BusTask) (point : Await) (s : State) : (s.suspend task point).port = s.port := rfl
@[simp] theorem State.suspend_resetRequest (task : BusTask) (point : Await) (s : State) : (s.suspend task point).resetRequest = s.resetRequest := rfl
@[simp] theorem State.suspend_history (task : BusTask) (point : Await) (s : State) : (s.suspend task point).history = s.history := rfl

@[simp] theorem State.iterRestart_params (s : State) : (s.iterRestart).params = s.params := rfl
@[simp] theorem State.iterRestart_addr (s : State) : (s.iterRestart).addr = s.addr := rfl
@[simp] theorem State.iterRestart_srch (s : State) : (s.iterRestart).srch = Address.zero := rfl
@[simp] theorem State.iterRestart_ld (s : State) : (s.iterRestart).ld = 0 := rfl
@[simp] theorem State.iterRestart_lastDevice (s : State) : (s.iterRestart).lastDevice = false := rfl
@[simp] theorem State.iterRestart_matchSeen (s : State) : (s.iterRestart).matchSeen = s.matchSeen := rfl
@[simp] theorem State.iterRestart_count (s : State) : (s.iterRestart).count = s.count := rfl
@[simp] theorem State.iterRestart_result (s : State) : (s.iterRestart).result = s.result := rfl
@[simp] theorem State.iterRestart_pin (s : State) : (s.iterRestart).pin = s.pin := rfl
@[simp] theorem State.iterRestart_control (s : State) : (s.iterRestart).control = s.control := rfl
@[simp] theorem State.iterRestart_line (s : State) : (s.iterRestart).line = s.line := rfl
@[simp] theorem State.iterRestart_port (s : State) : (s.iterRestart).port = s.port := rfl
@[simp] theorem State.iterRestart_resetRequest (s : State) : (s.iterRestart).resetRequest = s.resetRequest := rfl
@[simp] theorem State.iterRestart_history (s : State) : (s.iterRestart).history = s.history := rfl

@[simp] theorem State.iterTarget_params (f : Byte) (s : State) : (s.iterTarget f).params = s.params := rfl
@[simp] theorem State.iterTarget_addr (f : Byte) (s : State) : (s.iterTarget f).addr = s.addr := rfl
@[simp] theorem State.iterTarget_srch (f : Byte) (s : State) : (s.iterTarget f).srch = { Address.zero with b0 := f } := rfl
@[simp] theorem State.iterTarget_ld (f : Byte) (s : State) : (s.iterTarget f).ld = 64 := rfl
@[simp] theorem State.iterTarget_lastDevice (f : Byte) (s : State) : (s.iterTarget f).lastDevice = false := rfl
@[simp] theorem State.iterTarget_matchSeen (f : Byte) (s : State) : (s.iterTarget f).matchSeen = s.matchSeen := rfl
@[simp] theorem State.iterTarget_count (f : Byte) (s : State) : (s.iterTarget f).count = s.count := rfl
@[simp] theorem State.iterTarget_result (f : Byte) (s : State) : (s.iterTarget f).result = s.result := rfl
@[simp] theorem State.iterTarget_pin (f : Byte) (s : State) : (s.iterTarget f).pin = s.pin := rfl
@[simp] theorem State.iterTarget_control (f : Byte) (s : State) : (s.iterTarget f).control = s.control := rfl
@[simp] theorem State.iterTarget_line (f : Byte) (s : State) : (s.iterTarget f).line = s.line := rfl
@[simp] theorem State.iterTarget_port (f : Byte) (s : State) : (s.iterTarget f).port = s.port := rfl
@[simp] theorem State.iterTarget_resetRequest (f : Byte) (s : State) : (s.iterTarget f).resetRequest = s.resetRequest := rfl
@[simp] theorem State.iterTarget_history (f : Byte) (s : State) : (s.iterTarget f).history = s.history := rfl

@[simp] theorem State.yieldAddress_params (lastZero : Fin 65) (s : State) : (s.yieldAddress lastZero).params = s.params := rfl
@[simp] theorem State.yieldAddress_addr (lastZero : Fin 65) (s : State) : (s.yieldAddress lastZero).addr = s.srch := rfl
@[simp] theorem State.yieldAddress_srch (lastZero : Fin 65) (s : State) : (s.yieldAddress lastZero).srch = s.srch := rfl
@[simp] theorem State.yieldAddress_ld (lastZero : Fin 65) (s : State) : (s.yieldAddress lastZero).ld = lastZero := rfl
@[simp] theorem State.yieldAddress_lastDevice (lastZero : Fin 65) (s : State) : (s.yieldAddress lastZero).lastDevice = (s.lastDevice || lastZero == 0) := rfl
@[simp] theorem State.yieldAddress_matchSeen (lastZero : Fin 65) (s : State) : (s.yieldAddress lastZero).matchSeen = s.matchSeen := rfl
@[simp] theorem State.yieldAddress_count (lastZero : Fin 65) (s : State) : (s.yieldAddress lastZero).count = s.count := rfl
@[simp] theorem State.yieldAddress_result (lastZero : Fin 65) (s : State) : (s.yieldAddress lastZero).result = s.result := rfl
@[simp] theorem State.yieldAddress_pin (lastZero : Fin 65) (s : State) : (s.yieldAddress lastZero).pin = s.pin := rfl
@[simp] theorem State.yieldAddress_control (lastZero : Fin 65) (s : State) : (s.yieldAddress lastZero).control = s.control := rfl
@[simp] theorem State.yieldAddress_line (lastZero : Fin 65) (s : State) : (s.yieldAddress lastZero).line = s.line := rfl
@[simp] theorem State.yieldAddress_port (lastZero : Fin 65) (s : State) : (s.yieldAddress lastZero).port = s.port := rfl
@[simp] theorem State.yieldAddress_resetRequest (lastZero : Fin 65) (s : State) : (s.yieldAddress lastZero).resetRequest = s.resetRequest := rfl
@[simp] theorem State.yieldAddress_history (lastZero : Fin 65) (s : State) : (s.yieldAddress lastZero).history = s.history := rfl

@[simp] theorem State.follow_params (k : Nat) (d : Bool) (s : State) : (s.follow k d).params = s.params := rfl
@[simp] theorem State.follow_addr (k : Nat) (d : Bool) (s : State) : (s.follow k d).addr = s.addr := rfl
@[simp] theorem State.follow_srch (k : Nat) (d : Bool) (s : State) : (s.follow k d).srch = setAbit s.srch k d := rfl
@[simp] theorem State.follow_ld (k : Nat) (d : Bool) (s : State) : (s.follow k d).ld = s.ld := rfl
@[simp] theorem State.follow_lastDevice (k : Nat) (d : Bool) (s : State) : (s.follow k d).lastDevice = s.lastDevice := rfl
@[simp] theorem State.follow_matchSeen (k : Nat) (d : Bool) (s : State) : (s.follow k d).matchSeen = s.matchSeen := rfl
@[simp] theorem State.follow_count (k : Nat) (d : Bool) (s : State) : (s.follow k d).count = s.count := rfl
@[simp] theorem State.follow_result (k : Nat) (d : Bool) (s : State) : (s.follow k d).result = s.result := rfl
@[simp] theorem State.follow_pin (k : Nat) (d : Bool) (s : State) : (s.follow k d).pin = s.pin := rfl
@[simp] theorem State.follow_control (k : Nat) (d : Bool) (s : State) : (s.follow k d).control = s.control := rfl
@[simp] theorem State.follow_line (k : Nat) (d : Bool) (s : State) : (s.follow k d).line = s.line := rfl
@[simp] theorem State.follow_port (k : Nat) (d : Bool) (s : State) : (s.follow k d).port = s.port := rfl
@[simp] theorem State.follow_resetRequest (k : Nat) (d : Bool) (s : State) : (s.follow k d).resetRequest = s.resetRequest := rfl
@[simp] theorem State.follow_history (k : Nat) (d : Bool) (s : State) : (s.follow k d).history = s.history := rfl

@[simp] theorem State.takeReset_params (s : State) : (s.takeReset).params = s.params := rfl
@[simp] theorem State.takeReset_addr (s : State) : (s.takeReset).addr = Address.zero := rfl
@[simp] theorem State.takeReset_srch (s : State) : (s.takeReset).srch = Address.zero := rfl
@[simp] theorem State.takeReset_ld (s : State) : (s.takeReset).ld = 0 := rfl
@[simp] theorem State.takeReset_lastDevice (s : State) : (s.takeReset).lastDevice = false := rfl
@[simp] theorem State.takeReset_matchSeen (s : State) : (s.takeReset).matchSeen = false := rfl
@[simp] theorem State.takeReset_count (s : State) : (s.takeReset).count = 0 := rfl
@[simp] theorem State.takeReset_result (s : State) : (s.takeReset).result = .noDevice := rfl
@[simp] theorem State.takeReset_pin (s : State) : (s.takeReset).pin = s.params.busPin := rfl
@[simp] theorem State.takeReset_control (s : State) : (s.takeReset).control = .idle := rfl
@[simp] theorem State.takeReset_line (s : State) : (s.takeReset).line = s.line := rfl
@[simp] theorem State.takeReset_port (s : State) : (s.takeReset).port = s.port := rfl
@[simp] theorem State.takeReset_resetRequest (s : State) : (s.takeReset).resetRequest = false := rfl
@[simp] theorem State.takeReset_history (s : State) : (s.takeReset).history = s.history := rfl

@[simp] theorem State.place_params (bytes : List Byte) (s : State) : (s.place bytes).params = s.params := rfl
@[simp] theorem State.place_addr (bytes : List Byte) (s : State) : (s.place bytes).addr = s.addr := rfl
@[simp] theorem State.place_srch (bytes : List Byte) (s : State) : (s.place bytes).srch = s.srch := rfl
@[simp] theorem State.place_ld (bytes : List Byte) (s : State) : (s.place bytes).ld = s.ld := rfl
@[simp] theorem State.place_lastDevice (bytes : List Byte) (s : State) : (s.place bytes).lastDevice = s.lastDevice := rfl
@[simp] theorem State.place_matchSeen (bytes : List Byte) (s : State) : (s.place bytes).matchSeen = s.matchSeen := rfl
@[simp] theorem State.place_count (bytes : List Byte) (s : State) : (s.place bytes).count = s.count := rfl
@[simp] theorem State.place_result (bytes : List Byte) (s : State) : (s.place bytes).result = s.result := rfl
@[simp] theorem State.place_pin (bytes : List Byte) (s : State) : (s.place bytes).pin = s.pin := rfl
@[simp] theorem State.place_control (bytes : List Byte) (s : State) : (s.place bytes).control = .idle := rfl
@[simp] theorem State.place_line (bytes : List Byte) (s : State) : (s.place bytes).line = s.line := rfl
@[simp] theorem State.place_port (bytes : List Byte) (s : State) : (s.place bytes).port = bytes ++ s.port := rfl
@[simp] theorem State.place_resetRequest (bytes : List Byte) (s : State) : (s.place bytes).resetRequest = false := rfl
@[simp] theorem State.place_history (bytes : List Byte) (s : State) : (s.place bytes).history = s.history := rfl

end Sys2Proof.Machine
end

