-- ==== Sys2Proof/Laws/Transport.lean ====
section
/-! SUPPORT. Everything the transport primitives and the acceptance of a command can do. -/

namespace Sys2Proof.Machine

/-- T_RESET moves the line on and adds its event, and nothing else. -/
theorem State.tReset_spec {s t : State} {p : Bool} (h : s.tReset = some (p, t)) :
    ∃ line, s.line.reset = some (p, line) ∧
      t = { s with line := line, history := .tReset p :: s.history } := by
  unfold State.tReset at h
  split at h
  · cases h
  · rename_i p' line hl
    cases h
    exact ⟨line, hl, rfl⟩

/-- T_READ_BIT moves the line on and adds its event, and nothing else. -/
theorem State.tReadBit_spec {s t : State} {b : Bool} (h : s.tReadBit = some (b, t)) :
    ∃ line, s.line.readBit = some (b, line) ∧
      t = { s with line := line, history := .tReadBit b :: s.history } := by
  unfold State.tReadBit at h
  split at h
  · cases h
  · rename_i b' line hl
    cases h
    exact ⟨line, hl, rfl⟩

/-- T_WRITE_BYTE moves the line on and adds its event, and nothing else. -/
theorem State.tWriteByte_spec {s t : State} {v : Byte} (h : s.tWriteByte v = some t) :
    ∃ line, s.line.writeByte s.params.searchCmd v = some line ∧
      t = { s with line := line, history := .tWriteByte v :: s.history } := by
  unfold State.tWriteByte at h
  split at h
  · cases h
  · rename_i line hl
    cases h
    exact ⟨line, hl, rfl⟩

/-- T_WRITE_BIT moves the line on and adds its event, and nothing else. -/
theorem State.tWriteBit_spec {s t : State} {d : Bool} (h : s.tWriteBit d = some t) :
    ∃ line, s.line.writeBit d = some line ∧
      t = { s with line := line, history := .tWriteBit d :: s.history } := by
  unfold State.tWriteBit at h
  split at h
  · cases h
  · rename_i line hl
    cases h
    exact ⟨line, hl, rfl⟩

theorem State.tReset_script_nil {s : State} {writes : Nat} (h : s.line = .script [] writes) : s.tReset = none := by
  simp [State.tReset, h, Line.reset]

theorem State.tReset_script_cons {s : State} {p : Bool} {rest : List Bool} {writes : Nat}
    (h : s.line = .script (p :: rest) writes) :
    s.tReset = some (p, { s with line := .script rest writes, history := .tReset p :: s.history }) := by
  simp [State.tReset, h, Line.reset]

theorem State.tReset_ideal {s : State} {bus : IdealBus} (h : s.line = .ideal bus) :
    s.tReset = some (!bus.population.isEmpty,
      { s with line := .ideal bus.reset.2, history := .tReset (!bus.population.isEmpty) :: s.history }) := by
  simp [State.tReset, h, Line.reset, IdealBus.reset]

theorem State.tReadBit_script_nil {s : State} {writes : Nat} (h : s.line = .script [] writes) : s.tReadBit = none := by
  simp [State.tReadBit, h, Line.readBit]

theorem State.tReadBit_script_cons {s : State} {b : Bool} {rest : List Bool} {writes : Nat}
    (h : s.line = .script (b :: rest) writes) :
    s.tReadBit = some (b, { s with line := .script rest writes, history := .tReadBit b :: s.history }) := by
  simp [State.tReadBit, h, Line.readBit]

theorem State.tReadBit_ideal {s : State} {bus : IdealBus} (h : s.line = .ideal bus) :
    s.tReadBit = some (bus.readBit.1,
      { s with line := .ideal bus.readBit.2, history := .tReadBit bus.readBit.1 :: s.history }) := by
  simp [State.tReadBit, h, Line.readBit]

theorem State.tWriteByte_script_zero {s : State} {v : Byte} {answers : List Bool}
    (h : s.line = .script answers 0) : s.tWriteByte v = none := by
  simp [State.tWriteByte, h, Line.writeByte]

theorem State.tWriteByte_script_succ {s : State} {v : Byte} {answers : List Bool} {writes : Nat}
    (h : s.line = .script answers (writes + 1)) :
    s.tWriteByte v = some { s with line := .script answers writes, history := .tWriteByte v :: s.history } := by
  simp [State.tWriteByte, h, Line.writeByte]

theorem State.tWriteByte_ideal {s : State} {v : Byte} {bus : IdealBus} (h : s.line = .ideal bus) :
    s.tWriteByte v = some
      { s with line := .ideal (bus.writeByte s.params.searchCmd v), history := .tWriteByte v :: s.history } := by
  simp [State.tWriteByte, h, Line.writeByte]

theorem State.tWriteBit_script_zero {s : State} {d : Bool} {answers : List Bool}
    (h : s.line = .script answers 0) : s.tWriteBit d = none := by
  simp [State.tWriteBit, h, Line.writeBit]

theorem State.tWriteBit_script_succ {s : State} {d : Bool} {answers : List Bool} {writes : Nat}
    (h : s.line = .script answers (writes + 1)) :
    s.tWriteBit d = some { s with line := .script answers writes, history := .tWriteBit d :: s.history } := by
  simp [State.tWriteBit, h, Line.writeBit]

theorem State.tWriteBit_ideal {s : State} {d : Bool} {bus : IdealBus} (h : s.line = .ideal bus) :
    s.tWriteBit d = some { s with line := .ideal (bus.writeBit d), history := .tWriteBit d :: s.history } := by
  simp [State.tWriteBit, h, Line.writeBit]

/-- A command that answers a next state, or is refused by its own body, was accepted by an idle block. -/
theorem State.accept_next {i : Instr} {body : State → Result} {s t : State}
    (h : s.accept i body = .next t) :
    s.control = .idle ∧ body (s.record (.accepted i.opcode i.operand)) = .next t := by
  unfold State.accept at h
  split at h
  · cases h
  · exact ⟨by assumption, h⟩

theorem State.accept_idle {i : Instr} {body : State → Result} {s : State} (h : s.control = .idle) :
    s.accept i body = body (s.record (.accepted i.opcode i.operand)) := by
  simp [State.accept, h]

theorem State.accept_running {i : Instr} {body : State → Result} {s : State} (h : s.busy = true) :
    s.accept i body = .refused .commandWhileBusy := by
  unfold State.busy at h
  unfold State.accept
  split <;> simp_all

@[simp] theorem State.busy_eq_false {s : State} : s.busy = false ↔ s.control = .idle := by
  unfold State.busy
  split <;> simp_all

end Sys2Proof.Machine
end

