-- ==== Sys2Proof/Laws/Iterator.lean ====
section
/-! SUPPORT. Everything ITER_STEP and the loop around it can do, said once: the frame of a search, the rule for the
loop, and what a search does on a list of answers. -/

namespace Sys2Proof.Machine

/-- The fields no iterator operation writes. -/
structure State.SameRegisters (s t : State) : Prop where
  params : t.params = s.params
  matchSeen : t.matchSeen = s.matchSeen
  count : t.count = s.count
  result : t.result = s.result
  pin : t.pin = s.pin
  control : t.control = s.control
  port : t.port = s.port
  resetRequest : t.resetRequest = s.resetRequest

theorem State.SameRegisters.refl (s : State) : s.SameRegisters s :=
  ⟨rfl, rfl, rfl, rfl, rfl, rfl, rfl, rfl⟩

theorem State.SameRegisters.trans {s t u : State} (h : s.SameRegisters t) (g : t.SameRegisters u) :
    s.SameRegisters u :=
  ⟨g.params.trans h.params, g.matchSeen.trans h.matchSeen, g.count.trans h.count, g.result.trans h.result,
    g.pin.trans h.pin, g.control.trans h.control, g.port.trans h.port, g.resetRequest.trans h.resetRequest⟩

theorem State.iterRestart_same (s : State) : s.SameRegisters s.iterRestart :=
  ⟨rfl, rfl, rfl, rfl, rfl, rfl, rfl, rfl⟩

theorem State.iterTarget_same (f : Byte) (s : State) : s.SameRegisters (s.iterTarget f) :=
  ⟨rfl, rfl, rfl, rfl, rfl, rfl, rfl, rfl⟩

/-- A position's pair of reads either ends the step or chooses one direction (spec/41_iterator.md R114). -/
theorem State.branch_spec {s t : State} {k : Nat} {z z' : Fin 65} {b c d : Bool}
    (h : s.branch k z b c = some (z', d, t)) :
    (b && c) = false ∧ d = direction s.ld s.srch k b c ∧ t = s.follow k d ∧ z' = nextLastZero k b c d z := by
  unfold State.branch at h
  split at h
  · cases h
  · simp only [Option.some.injEq, Prod.mk.injEq] at h
    obtain ⟨rfl, rfl, rfl⟩ := h
    exact ⟨by simp_all, rfl, rfl, rfl⟩

theorem State.branch_none {s : State} {k : Nat} {z : Fin 65} {b c : Bool} (h : (b && c) = true) :
    s.branch k z b c = none := by
  simp [State.branch, h]

theorem State.branch_some {s : State} {k : Nat} {z : Fin 65} {b c : Bool} (h : (b && c) = false) :
    s.branch k z b c = some (nextLastZero k b c (direction s.ld s.srch k b c) z, direction s.ld s.srch k b c,
      s.follow k (direction s.ld s.srch k b c)) := by
  simp [State.branch, h]

/-- `last_zero` stays before the next position. -/
theorem nextLastZero_lt {k : Nat} {b c d : Bool} {z : Fin 65} (hz : z.val < k) (hk : k ≤ 64) :
    (nextLastZero k b c d z).val < k + 1 := by
  unfold nextLastZero
  split
  · simp only [Fin.ofNat, Nat.mod_eq_of_lt (by omega : k < 65)]
    omega
  · omega

/-- What a search leaves of the state, whatever the transport answers. -/
def IterResult.Frame (s : State) : IterResult → Prop
  | .found t => s.SameRegisters t ∧ t.addr = t.srch ∧ t.lastDevice = (s.lastDevice || t.ld == 0)
  | .notFound t => s.SameRegisters t ∧ t.addr = s.addr ∧ t.srch = Address.zero ∧ t.ld = 0 ∧ t.lastDevice = false
  | .waits _ t => s.SameRegisters t ∧ t.addr = s.addr ∧ t.ld = s.ld ∧ t.lastDevice = s.lastDevice

theorem IterResult.Frame.of_search {s t : State} {r : IterResult} (h : r.Frame t) (same : s.SameRegisters t)
    (addr : t.addr = s.addr) (ld : t.ld = s.ld) (last : t.lastDevice = s.lastDevice) : r.Frame s := by
  cases r with
  | found u => exact ⟨same.trans h.1, h.2.1, by rw [← last]; exact h.2.2⟩
  | notFound u => exact ⟨same.trans h.1, h.2.1.trans addr, h.2.2⟩
  | waits p u => exact ⟨same.trans h.1, h.2.1.trans addr, h.2.2.1.trans ld, h.2.2.2.trans last⟩

theorem State.follow_same (k : Nat) (d : Bool) (s : State) : s.SameRegisters (s.follow k d) :=
  ⟨rfl, rfl, rfl, rfl, rfl, rfl, rfl, rfl⟩

theorem State.tReset_same {s t : State} {p : Bool} (h : s.tReset = some (p, t)) :
    s.SameRegisters t ∧ t.addr = s.addr ∧ t.srch = s.srch ∧ t.ld = s.ld ∧ t.lastDevice = s.lastDevice := by
  obtain ⟨line, -, rfl⟩ := State.tReset_spec h
  exact ⟨⟨rfl, rfl, rfl, rfl, rfl, rfl, rfl, rfl⟩, rfl, rfl, rfl, rfl⟩

theorem State.tReadBit_same {s t : State} {b : Bool} (h : s.tReadBit = some (b, t)) :
    s.SameRegisters t ∧ t.addr = s.addr ∧ t.srch = s.srch ∧ t.ld = s.ld ∧ t.lastDevice = s.lastDevice := by
  obtain ⟨line, -, rfl⟩ := State.tReadBit_spec h
  exact ⟨⟨rfl, rfl, rfl, rfl, rfl, rfl, rfl, rfl⟩, rfl, rfl, rfl, rfl⟩

theorem State.tWriteByte_same {s t : State} {v : Byte} (h : s.tWriteByte v = some t) :
    s.SameRegisters t ∧ t.addr = s.addr ∧ t.srch = s.srch ∧ t.ld = s.ld ∧ t.lastDevice = s.lastDevice := by
  obtain ⟨line, -, rfl⟩ := State.tWriteByte_spec h
  exact ⟨⟨rfl, rfl, rfl, rfl, rfl, rfl, rfl, rfl⟩, rfl, rfl, rfl, rfl⟩

theorem State.tWriteBit_same {s t : State} {d : Bool} (h : s.tWriteBit d = some t) :
    s.SameRegisters t ∧ t.addr = s.addr ∧ t.srch = s.srch ∧ t.ld = s.ld ∧ t.lastDevice = s.lastDevice := by
  obtain ⟨line, -, rfl⟩ := State.tWriteBit_spec h
  exact ⟨⟨rfl, rfl, rfl, rfl, rfl, rfl, rfl, rfl⟩, rfl, rfl, rfl, rfl⟩

theorem iterRestart_frame {s t : State} (same : s.SameRegisters t) (addr : t.addr = s.addr) :
    (IterResult.notFound t.iterRestart).Frame s :=
  ⟨same.trans t.iterRestart_same, addr, rfl, rfl, rfl⟩

theorem searchFrom_frame (n k : Nat) (z : Fin 65) (s : State) : (searchFrom n k z s).Frame s := by
  induction n generalizing k z s with
  | zero => exact ⟨⟨rfl, rfl, rfl, rfl, rfl, rfl, rfl, rfl⟩, rfl, rfl⟩
  | succ n ih =>
    unfold searchFrom
    split
    · exact ⟨State.SameRegisters.refl s, rfl, rfl, rfl⟩
    · rename_i b s1 h1
      have f1 := State.tReadBit_same h1
      split
      · exact ⟨f1.1, f1.2.1, f1.2.2.2⟩
      · rename_i c s2 h2
        have f2 := State.tReadBit_same h2
        have same := f1.1.trans f2.1
        have addr := f2.2.1.trans f1.2.1
        split
        · exact iterRestart_frame same addr
        · rename_i z' d s3 h3
          obtain ⟨-, -, rfl, -⟩ := State.branch_spec h3
          have ld := f2.2.2.2.1.trans f1.2.2.2.1
          have last := f2.2.2.2.2.trans f1.2.2.2.2
          have same' := same.trans (State.follow_same k d s2)
          split
          · exact ⟨same', addr, ld, last⟩
          · rename_i s4 h4
            have f4 := State.tWriteBit_same h4
            exact (ih (k + 1) z' s4).of_search (same'.trans f4.1) (f4.2.1.trans addr)
              (f4.2.2.2.1.trans ld) (f4.2.2.2.2.trans last)

theorem searchDirection_frame (k : Nat) (z : Fin 65) (d : Bool) (s : State) : (searchDirection k z d s).Frame s := by
  unfold searchDirection
  split
  · exact ⟨State.SameRegisters.refl s, rfl, rfl, rfl⟩
  · rename_i s1 h1
    have f1 := State.tWriteBit_same h1
    exact (searchFrom_frame ..).of_search f1.1 f1.2.1 f1.2.2.2.1 f1.2.2.2.2

theorem searchComplement_frame (k : Nat) (z : Fin 65) (b : Bool) (s : State) :
    (searchComplement k z b s).Frame s := by
  unfold searchComplement
  split
  · exact ⟨State.SameRegisters.refl s, rfl, rfl, rfl⟩
  · rename_i c s1 h1
    have f1 := State.tReadBit_same h1
    split
    · exact iterRestart_frame f1.1 f1.2.1
    · rename_i z' d s2 h2
      obtain ⟨-, -, rfl, -⟩ := State.branch_spec h2
      exact (searchDirection_frame ..).of_search (f1.1.trans (State.follow_same ..)) f1.2.1 f1.2.2.2.1 f1.2.2.2.2

theorem searchCommand_frame (s : State) : (searchCommand s).Frame s := by
  unfold searchCommand
  split
  · exact ⟨State.SameRegisters.refl s, rfl, rfl, rfl⟩
  · rename_i s1 h1
    have f1 := State.tWriteByte_same h1
    exact (searchFrom_frame ..).of_search f1.1 f1.2.1 f1.2.2.2.1 f1.2.2.2.2

theorem searchBus_frame (s : State) : (searchBus s).Frame s := by
  unfold searchBus
  split
  · exact ⟨State.SameRegisters.refl s, rfl, rfl, rfl⟩
  · rename_i s1 h1
    exact iterRestart_frame (State.tReset_same h1).1 (State.tReset_same h1).2.1
  · rename_i s1 h1
    have f1 := State.tReset_same h1
    exact (searchCommand_frame s1).of_search f1.1 f1.2.1 f1.2.2.2.1 f1.2.2.2.2

/-- What an ITER_STEP leaves of the state, from whatever point it goes on and whatever the transport answers. -/
theorem iterFrom_frame (point : Await) (s : State) : (iterFrom point s).Frame s := by
  cases point with
  | entry =>
    change (iterStep s).Frame s
    unfold iterStep
    split
    · exact iterRestart_frame (State.SameRegisters.refl s) rfl
    · exact searchBus_frame s
  | presence => exact searchBus_frame s
  | command => exact searchCommand_frame s
  | value k z => exact searchFrom_frame ..
  | complement k z b => exact searchComplement_frame ..
  | direction k z d => exact searchDirection_frame ..

/-- The rule for the loop: an invariant `I` of the loop that leads to `Q` on every way out of it. -/
theorem iterLoop_rule {α : Type} {task : α → BusTask} {onYield : α → State → LoopNext α}
    {onEnd : α → State → State} (I : α → Await → State → Prop) (Q : Result → Prop)
    (waits : ∀ x point s point' t, I x point s → iterFrom point s = .waits point' t →
      Q (.next (t.suspend (task x) point')))
    (ends : ∀ x point s t, I x point s → iterFrom point s = .notFound t → Q (.next (onEnd x t)))
    (done : ∀ x point s t u, I x point s → iterFrom point s = .found t → onYield x t = .done u → Q (.next u))
    (refuse : ∀ x point s t r, I x point s → iterFrom point s = .found t → onYield x t = .refuse r →
      Q (.refused r))
    (again : ∀ x point s t x', I x point s → iterFrom point s = .found t → onYield x t = .again x' →
      I x' .entry t)
    (rests : ∀ x t, I x .entry t → Q (.next (t.suspend (task x) .entry)))
    (n : Nat) (x : α) (point : Await) (s : State) (start : I x point s) :
    Q (iterLoop task onYield onEnd n x point s) := by
  induction n generalizing x point s with
  | zero =>
    unfold iterLoop
    split
    · exact waits _ _ _ _ _ start ‹_›
    · exact ends _ _ _ _ start ‹_›
    · rename_i t ht
      split
      · exact done _ _ _ _ _ start ht ‹_›
      · exact refuse _ _ _ _ _ start ht ‹_›
      · exact rests _ _ (again _ _ _ _ _ start ht ‹_›)
  | succ n ih =>
    unfold iterLoop
    split
    · exact waits _ _ _ _ _ start ‹_›
    · exact ends _ _ _ _ start ‹_›
    · rename_i t ht
      split
      · exact done _ _ _ _ _ start ht ‹_›
      · exact refuse _ _ _ _ _ start ht ‹_›
      · exact ih _ _ _ (again _ _ _ _ _ start ht ‹_›)

end Sys2Proof.Machine
end

