-- ==== Sys2Proof/Laws/Control.lean ====
section
/-! SUPPORT. Where a search can wait, and what it adds to the history and takes from the line. -/

namespace Sys2Proof.Machine

/-- A search that waits does so at a legal point inside the conversation. -/
theorem searchFrom_waits {n k : Nat} {z : Fin 65} {s t : State} {point : Await} (hn : n + k = 65) (hk : 1 ≤ k)
    (hz : z.val < k) (h : searchFrom n k z s = .waits point t) : point.legal = true ∧ point.inSearch = true := by
  induction n generalizing k z s with
  | zero => cases h
  | succ n ih =>
    unfold searchFrom at h
    split at h
    · cases h
      exact ⟨by simp [Await.legal]; omega, rfl⟩
    · rename_i b s1 h1
      split at h
      · cases h
        exact ⟨by simp [Await.legal]; omega, rfl⟩
      · rename_i c s2 h2
        split at h
        · cases h
        · rename_i z' d s3 h3
          obtain ⟨-, -, -, rfl⟩ := State.branch_spec h3
          have lt := nextLastZero_lt (b := b) (c := c) (d := d) hz (by omega : k ≤ 64)
          split at h
          · cases h
            exact ⟨by simp [Await.legal]; omega, rfl⟩
          · exact ih (by omega) (by omega) lt h

/-- The same from the write of a direction. -/
theorem searchDirection_waits {k : Nat} {z : Fin 65} {d : Bool} {s t : State} {point : Await}
    (hk : 1 ≤ k ∧ k ≤ 64) (hz : z.val ≤ k) (h : searchDirection k z d s = .waits point t) :
    point.legal = true ∧ point.inSearch = true := by
  unfold searchDirection at h
  split at h
  · cases h
    exact ⟨by simp [Await.legal]; omega, rfl⟩
  · exact searchFrom_waits (by omega) (by omega) (by omega) h

/-- The same from the write of the search command. -/
theorem searchCommand_waits {s t : State} {point : Await} (h : searchCommand s = .waits point t) :
    point.legal = true ∧ point.inSearch = true := by
  unfold searchCommand at h
  split at h
  · cases h
    exact ⟨rfl, rfl⟩
  · exact searchFrom_waits (by omega) (by omega) (by simp) h

/-- From a legal point, ITER_STEP waits only at a legal point inside the conversation. -/
theorem iterFrom_waits {point point' : Await} {s t : State} (legal : point.legal = true)
    (h : iterFrom point s = .waits point' t) : point'.legal = true ∧ point'.inSearch = true := by
  have bus : ∀ {s : State}, searchBus s = .waits point' t → point'.legal = true ∧ point'.inSearch = true := by
    intro s h
    unfold searchBus at h
    split at h
    · cases h
      exact ⟨rfl, rfl⟩
    · cases h
    · exact searchCommand_waits h
  cases point with
  | entry =>
    change iterStep s = .waits point' t at h
    unfold iterStep at h
    split at h
    · cases h
    · exact bus h
  | presence => exact bus h
  | command => exact searchCommand_waits h
  | value k z =>
    simp only [Await.legal, decide_eq_true_eq] at legal
    exact searchFrom_waits (by omega) legal.1 legal.2.2 h
  | complement k z b =>
    have legal' := legal
    simp only [Await.legal, decide_eq_true_eq] at legal'
    change searchComplement k z b s = .waits point' t at h
    unfold searchComplement at h
    split at h
    · cases h
      exact ⟨legal, rfl⟩
    · split at h
      · cases h
      · rename_i h3
        obtain ⟨-, -, -, rfl⟩ := State.branch_spec h3
        exact searchDirection_waits ⟨legal'.1, legal'.2.1⟩
          (Nat.le_of_lt_succ (nextLastZero_lt legal'.2.2 legal'.2.1)) h
  | direction k z d =>
    simp only [Await.legal, decide_eq_true_eq] at legal
    exact searchDirection_waits ⟨legal.1, legal.2.1⟩ legal.2.2 h

/-- `t` comes after `s`: the history grew, and what the transport had answered and was still to answer, if its
answers are a list, make the same sequence, and the writes completed and still to be completed the same number. -/
structure State.After (s t : State) : Prop where
  grows : ∃ new, t.history = new ++ s.history ∧ acceptances new = 0
  answers : ∀ as m, s.line = .script as m →
    ∃ bs n, t.line = .script bs n ∧ answersIn t.history ++ bs = answersIn s.history ++ as ∧
      writesIn t.history + n = writesIn s.history + m

theorem State.After.refl (s : State) : s.After s := ⟨⟨[], rfl, rfl⟩, fun as m h => ⟨as, m, h, rfl, rfl⟩⟩

theorem State.After.trans {s t u : State} (h : s.After t) (g : t.After u) : s.After u := by
  refine ⟨?_, fun as m hs => ?_⟩
  · obtain ⟨n1, e1, a1⟩ := h.grows
    obtain ⟨n2, e2, a2⟩ := g.grows
    exact ⟨n2 ++ n1, by rw [e2, e1, List.append_assoc], by simp_all [acceptances, List.countP_append]⟩
  · obtain ⟨bs, n, e1, a1, w1⟩ := h.answers as m hs
    obtain ⟨cs, k, e2, a2, w2⟩ := g.answers bs n e1
    exact ⟨cs, k, e2, a2.trans a1, w2.trans w1⟩

/-- An update that leaves history and line alone. -/
theorem State.After.of_same {s t : State} (history : t.history = s.history) (line : t.line = s.line) : s.After t :=
  ⟨⟨[], by rw [history]; rfl, rfl⟩, fun as m h => ⟨as, m, by rw [line, h], by rw [history], by rw [history]⟩⟩

theorem State.tReset_after {s t : State} {p : Bool} (h : s.tReset = some (p, t)) : s.After t := by
  obtain ⟨line, e, rfl⟩ := State.tReset_spec h
  refine ⟨⟨[.tReset p], rfl, rfl⟩, fun as m hs => ?_⟩
  rw [hs] at e
  cases as with
  | nil => cases e
  | cons a rest =>
    cases e
    exact ⟨rest, m, rfl, by simp [answersIn, Event.answer?], by simp [writesIn, Event.isWrite]⟩

theorem State.tReadBit_after {s t : State} {b : Bool} (h : s.tReadBit = some (b, t)) : s.After t := by
  obtain ⟨line, e, rfl⟩ := State.tReadBit_spec h
  refine ⟨⟨[.tReadBit b], rfl, rfl⟩, fun as m hs => ?_⟩
  rw [hs] at e
  cases as with
  | nil => cases e
  | cons a rest =>
    cases e
    exact ⟨rest, m, rfl, by simp [answersIn, Event.answer?], by simp [writesIn, Event.isWrite]⟩

theorem State.follow_after (k : Nat) (d : Bool) (s : State) : s.After (s.follow k d) := State.After.of_same rfl rfl

theorem State.tWriteByte_after {s t : State} {v : Byte} (h : s.tWriteByte v = some t) : s.After t := by
  obtain ⟨line, e, rfl⟩ := State.tWriteByte_spec h
  refine ⟨⟨[.tWriteByte v], rfl, rfl⟩, fun as m hs => ?_⟩
  rw [hs] at e
  cases m with
  | zero => cases e
  | succ n =>
    cases e
    exact ⟨as, n, rfl, by simp [answersIn, List.filterMap_cons, Event.answer?],
      by simp [writesIn, List.countP_cons, Event.isWrite]; omega⟩

theorem State.tWriteBit_after {s t : State} {d : Bool} (h : s.tWriteBit d = some t) : s.After t := by
  obtain ⟨line, e, rfl⟩ := State.tWriteBit_spec h
  refine ⟨⟨[.tWriteBit d], rfl, rfl⟩, fun as m hs => ?_⟩
  rw [hs] at e
  cases m with
  | zero => cases e
  | succ n =>
    cases e
    exact ⟨as, n, rfl, by simp [answersIn, List.filterMap_cons, Event.answer?],
      by simp [writesIn, List.countP_cons, Event.isWrite]; omega⟩

/-- The state a search ends in. -/
def IterResult.state : IterResult → State
  | .found t => t
  | .notFound t => t
  | .waits _ t => t

theorem searchFrom_after (n k : Nat) (z : Fin 65) (s : State) : s.After (searchFrom n k z s).state := by
  induction n generalizing k z s with
  | zero => exact State.After.of_same rfl rfl
  | succ n ih =>
    unfold searchFrom
    split
    · exact State.After.refl s
    · rename_i h1
      split
      · exact State.tReadBit_after h1
      · rename_i h2
        have both := (State.tReadBit_after h1).trans (State.tReadBit_after h2)
        split
        · exact both.trans (State.After.of_same rfl rfl)
        · rename_i z' d s3 h3
          obtain ⟨-, -, rfl, -⟩ := State.branch_spec h3
          have chosen := both.trans (State.follow_after k d _)
          split
          · exact chosen
          · rename_i h4
            exact (chosen.trans (State.tWriteBit_after h4)).trans (ih ..)

theorem searchDirection_after (k : Nat) (z : Fin 65) (d : Bool) (s : State) :
    s.After (searchDirection k z d s).state := by
  unfold searchDirection
  split
  · exact State.After.refl s
  · rename_i h1
    exact (State.tWriteBit_after h1).trans (searchFrom_after ..)

theorem searchCommand_after (s : State) : s.After (searchCommand s).state := by
  unfold searchCommand
  split
  · exact State.After.refl s
  · rename_i h1
    exact (State.tWriteByte_after h1).trans (searchFrom_after ..)

theorem searchBus_after (s : State) : s.After (searchBus s).state := by
  unfold searchBus
  split
  · exact State.After.refl s
  · rename_i h1
    exact (State.tReset_after h1).trans (State.After.of_same rfl rfl)
  · rename_i h1
    exact (State.tReset_after h1).trans (searchCommand_after _)

/-- ITER_STEP only adds primitives to the history, and takes the transport's answers in order (R53, R63). -/
theorem iterFrom_after (point : Await) (s : State) : s.After (iterFrom point s).state := by
  cases point with
  | entry =>
    change s.After (iterStep s).state
    unfold iterStep
    split
    · exact State.After.of_same rfl rfl
    · exact searchBus_after s
  | presence => exact searchBus_after s
  | command => exact searchCommand_after s
  | value k z => exact searchFrom_after ..
  | complement k z b =>
    change s.After (searchComplement k z b s).state
    unfold searchComplement
    split
    · exact State.After.refl s
    · rename_i h1
      split
      · exact (State.tReadBit_after h1).trans (State.After.of_same rfl rfl)
      · rename_i h3
        obtain ⟨-, -, rfl, -⟩ := State.branch_spec h3
        exact ((State.tReadBit_after h1).trans (State.follow_after ..)).trans (searchDirection_after ..)
  | direction k z d => exact searchDirection_after ..

end Sys2Proof.Machine
end

