-- ==== Sys2Proof/Laws/Operands.lean ====
section
/-! SUPPORT. The bytes and bits of an address, and the checksum engine one bit at a time. -/

namespace Sys2Proof.Machine

@[simp] theorem addrByte_setAddrByte (a : Address) (i j : Nat) (v : Byte) (hi : i < 8) (hj : j < 8) :
    addrByte (setAddrByte a i v) j = if j = i then v else addrByte a j := by
  interval_cases i <;> interval_cases j <;> rfl

@[simp] theorem getLsbD_setByteBit (v : Byte) (i j : Nat) (d : Bool) (hi : i < 8) (hj : j < 8) :
    (setByteBit v i d).getLsbD j = if j = i then d else v.getLsbD j := by
  unfold setByteBit
  interval_cases i <;> interval_cases j <;> cases d <;> simp

theorem address_ext_bytes {a b : Address} (h : ∀ i < 8, addrByte a i = addrByte b i) : a = b := by
  have h0 := h 0 (by decide)
  have h1 := h 1 (by decide)
  have h2 := h 2 (by decide)
  have h3 := h 3 (by decide)
  have h4 := h 4 (by decide)
  have h5 := h 5 (by decide)
  have h6 := h 6 (by decide)
  have h7 := h 7 (by decide)
  cases a
  cases b
  simp_all [addrByte]

/-- One shift of the engine is linear over XOR (spec/40_checksum.md R102). -/
theorem crcShift_xor (c d x y : Byte) :
    crcShift (c ^^^ d) (x ^^^ y) = crcShift c x ^^^ crcShift d y := by
  have bit : ∀ b : Bool, ∀ r : Byte,
      (if b then (r >>> 1) ^^^ Config.crcPolyReflected else r >>> 1)
        = (r >>> 1) ^^^ (if b then Config.crcPolyReflected else 0) := by
    intro b r
    cases b <;> simp
  simp only [crcShift, bit]
  have low : ((c ^^^ d) ^^^ (x ^^^ y)).getLsbD 0
      = ((c ^^^ x).getLsbD 0 ^^ (d ^^^ y).getLsbD 0) := by
    simp [Bool.xor_left_comm]
  rw [low, BitVec.ushiftRight_xor_distrib]
  generalize Config.crcPolyReflected = g
  generalize c >>> 1 = c'
  generalize d >>> 1 = d'
  have cancel : c' ^^^ d' = (c' ^^^ g) ^^^ (d' ^^^ g) := by
    rw [show (c' ^^^ g) ^^^ (d' ^^^ g) = (g ^^^ g) ^^^ (c' ^^^ d') by ac_rfl]
    simp
  cases (c ^^^ x).getLsbD 0 <;> cases (d ^^^ y).getLsbD 0
  · simp
  · simp only [Bool.false_xor, if_true, Bool.false_eq_true, if_false]
    ac_rfl
  · simp only [Bool.xor_false, if_true, Bool.false_eq_true, if_false]
    ac_rfl
  · simpa using cancel

@[simp] theorem crc8_nil : crc8 [] = 0 := rfl

theorem crc8_append_byte (s : List Byte) (v : Byte) : crc8 (s ++ [v]) = crcStep (crc8 s) v := by
  simp [crc8]

end Sys2Proof.Machine
end

