-- ==== Sys2Proof/Laws/IdealBus.lean ====
section
/-! SUPPORT. What a search does on the ideal bus of spec/20_memory.md R58: it yields a device, and the state it
leaves stands at that device in the tree. -/

namespace Sys2Proof.Machine

/-- Writing one position changes that bit alone. -/
theorem abit_setAbit_of_range {a : Address} {k j : Nat} {d : Bool} (hk : 1 ≤ k ∧ k ≤ 64) (hj : 1 ≤ j ∧ j ≤ 64) :
    abit (setAbit a k d) j = if j = k then d else abit a j := by
  unfold abit setAbit
  rw [addrByte_setAddrByte _ _ _ _ (by omega) (by omega)]
  by_cases hb : (j - 1) / 8 = (k - 1) / 8
  · rw [if_pos hb, getLsbD_setByteBit _ _ _ _ (by omega) (by omega), hb]
    by_cases hjk : j = k
    · simp [hjk]
    · rw [if_neg hjk, if_neg (by omega)]
  · rw [if_neg hb, if_neg (by rintro rfl; exact hb rfl)]

/-- Two addresses with the same 64 positions are equal. -/
theorem eq_of_abit {a b : Address} (h : ∀ k, 1 ≤ k ∧ k ≤ 64 → abit a k = abit b k) : a = b := by
  apply address_ext_bytes
  intro i hi
  apply BitVec.eq_of_getLsbD_eq
  intro j hj
  have := h (8 * i + j + 1) (by omega)
  unfold abit at this
  rwa [show (8 * i + j + 1 - 1) / 8 = i by omega, show (8 * i + j + 1 - 1) % 8 = j by omega] at this

/-- Two addresses agree before position `k`. -/
def agreeBefore (k : Nat) (a b : Address) : Prop := ∀ j, 1 ≤ j → j < k → abit a j = abit b j

theorem agreeBefore.symm {k : Nat} {a b : Address} (h : agreeBefore k a b) : agreeBefore k b a :=
  fun j h1 h2 => (h j h1 h2).symm

theorem agreeBefore.trans {k : Nat} {a b c : Address} (h : agreeBefore k a b) (g : agreeBefore k b c) :
    agreeBefore k a c := fun j h1 h2 => (h j h1 h2).trans (g j h1 h2)

theorem agreeBefore.mono {k l : Nat} {a b : Address} (h : agreeBefore k a b) (hl : l ≤ k) : agreeBefore l a b :=
  fun j h1 h2 => h j h1 (Nat.lt_of_lt_of_le h2 hl)

theorem agreeBefore.succ {k : Nat} {a b : Address} (h : agreeBefore k a b) (e : abit a k = abit b k) :
    agreeBefore (k + 1) a b := by
  intro j h1 h2
  by_cases hj : j = k
  · rwa [hj]
  · exact h j h1 (by omega)

/-- `k` is the first position where `a` and `b` differ. -/
def firstDiff (k : Nat) (a b : Address) : Prop :=
  1 ≤ k ∧ k ≤ 64 ∧ agreeBefore k a b ∧ abit a k ≠ abit b k

theorem firstDiff.symm {k : Nat} {a b : Address} (h : firstDiff k a b) : firstDiff k b a :=
  ⟨h.1, h.2.1, h.2.2.1.symm, h.2.2.2.symm⟩

/-- Distinct addresses have a first difference. -/
theorem exists_firstDiff {a b : Address} (h : a ≠ b) : ∃ k, firstDiff k a b := by
  have differ : ∃ k, (1 ≤ k ∧ k ≤ 64) ∧ abit a k ≠ abit b k := by
    by_contra none
    push Not at none
    exact h (eq_of_abit none)
  classical
  refine ⟨Nat.find differ, (Nat.find_spec differ).1.1, (Nat.find_spec differ).1.2, ?_, (Nat.find_spec differ).2⟩
  intro j h1 h2
  by_contra hj
  exact Nat.find_min differ h2 ⟨⟨h1, le_trans h2.le (Nat.find_spec differ).1.2⟩, hj⟩

/-- Tree order read off the first difference (spec/00_scope.md R11). -/
theorem treeLt_iff {a b : Address} :
    treeLt a b ↔ ∃ k, firstDiff k a b ∧ abit a k = false ∧ abit b k = true := by
  constructor
  · rintro ⟨k, hk, agree, ha, hb⟩
    rw [List.mem_range'_1] at hk
    refine ⟨k, ⟨hk.1, by omega, ?_, by simp [ha, hb]⟩, ha, hb⟩
    intro j h1 h2
    exact agree j (List.mem_range'_1.2 ⟨h1, by omega⟩)
  · rintro ⟨k, ⟨h1, h2, agree, -⟩, ha, hb⟩
    refine ⟨k, List.mem_range'_1.2 ⟨h1, by omega⟩, ?_, ha, hb⟩
    intro j hj
    rw [List.mem_range'_1] at hj
    exact agree j hj.1 (by omega)

/-- The conversation of an ideal bus at the start of position `k`, with the devices `A` still taking part. -/
def IdealBus.at' (population A : List Address) (k : Nat) : IdealBus :=
  { population := population, participants := A, position := k, phase := .value, searching := true }

/-- The loop of R114 on the ideal bus, about to read position `k`: the participants are the devices on the path so
far, and the choices made and `last_zero` are those R114 gives. `ld` and `srch` are as the step began. -/
structure Searching (population : List Address) (ld : Fin 65) (srch : Address) (k : Nat) (z : Fin 65)
    (s : State) : Prop where
  line : ∃ A, s.line = .ideal (IdealBus.at' population A k) ∧ A ≠ [] ∧
    ∀ a, a ∈ A ↔ a ∈ population ∧ agreeBefore k a s.srch
  ldEq : s.ld = ld
  ahead : ∀ j, k ≤ j → j ≤ 64 → abit s.srch j = abit srch j
  choice : ∀ b ∈ population, ∀ j, j < k → firstDiff j b s.srch →
    abit s.srch j = (if j < ld.val then abit srch j else decide (j = ld.val)) ∧
      (abit s.srch j = false → j ≤ z.val)
  zero : z = 0 ∨ (z.val < k ∧ ∃ b ∈ population, firstDiff z.val b s.srch ∧ abit s.srch z.val = false)

/-- Where a step that yields on the ideal bus lands: `ld` and `srch` are as the step began. -/
structure Landing (population : List Address) (ld : Fin 65) (srch : Address) (t : State) : Prop where
  member : t.srch ∈ population
  addr : t.addr = t.srch
  choice : ∀ b ∈ population, ∀ j, firstDiff j b t.srch →
    abit t.srch j = (if j < ld.val then abit srch j else decide (j = ld.val)) ∧
      (abit t.srch j = false → j ≤ t.ld.val)
  zero : t.ld = 0 ∨ ∃ b ∈ population, firstDiff t.ld.val b t.srch ∧ abit t.srch t.ld.val = false
  lastDevice : t.lastDevice = (t.ld == 0)
  line : t.OnIdealBus population

theorem agreeBefore_setAbit {k : Nat} {a s : Address} {d : Bool} (hk : 1 ≤ k ∧ k ≤ 64) :
    agreeBefore k a (setAbit s k d) ↔ agreeBefore k a s := by
  constructor <;> intro h j h1 h2
  · have := h j h1 h2
    rwa [abit_setAbit_of_range hk ⟨h1, by omega⟩, if_neg (by omega)] at this
  · rw [abit_setAbit_of_range hk ⟨h1, by omega⟩, if_neg (by omega)]
    exact h j h1 h2

theorem firstDiff_setAbit_lt {k j : Nat} {a s : Address} {d : Bool} (hk : 1 ≤ k ∧ k ≤ 64) (hj : j < k) :
    firstDiff j a (setAbit s k d) ↔ firstDiff j a s := by
  unfold firstDiff
  by_cases h1 : 1 ≤ j
  · have agree : agreeBefore j a (setAbit s k d) ↔ agreeBefore j a s := by
      constructor <;> intro h i hi1 hi2
      · have := h i hi1 hi2
        rwa [abit_setAbit_of_range hk ⟨hi1, by omega⟩, if_neg (by omega)] at this
      · rw [abit_setAbit_of_range hk ⟨hi1, by omega⟩, if_neg (by omega)]
        exact h i hi1 hi2
    rw [agree, abit_setAbit_of_range hk ⟨h1, by omega⟩, if_neg (by omega)]
  · simp [h1]

/-- One position of the search on the ideal bus, with the reads and the write it makes. -/
theorem position_ideal {population A : List Address} {k : Nat} {s : State} (hk : k ≤ 64)
    (h : s.line = .ideal (IdealBus.at' population A k)) :
    ∃ s1 s2 : State,
      s.tReadBit = some (A.all fun a => abit a k, s1) ∧
      s1.tReadBit = some (A.all fun a => !abit a k, s2) ∧
      s2.srch = s.srch ∧ s2.ld = s.ld ∧ s2.lastDevice = s.lastDevice ∧
      s2.history = .tReadBit (A.all fun a => !abit a k) :: .tReadBit (A.all fun a => abit a k) :: s.history ∧
      ∀ d, ∃ s3 : State, (s2.follow k d).tWriteBit d = some s3 ∧
        s3.line = .ideal (IdealBus.at' population (A.filter fun a => abit a k == d) (k + 1)) ∧
        s3.srch = setAbit s.srch k d ∧ s3.ld = s.ld ∧ s3.lastDevice = s.lastDevice ∧
        s3.history = .tWriteBit d :: s2.history := by
  have hk' : ¬ 64 < k := by omega
  have r1 : (IdealBus.at' population A k).readBit
      = (A.all fun a => abit a k, { IdealBus.at' population A k with phase := .complement }) := by
    simp [IdealBus.readBit, IdealBus.at', hk']
  have r2 : ({ IdealBus.at' population A k with phase := .complement } : IdealBus).readBit
      = (A.all fun a => !abit a k, { IdealBus.at' population A k with phase := .direction }) := by
    simp [IdealBus.readBit, IdealBus.at', hk']
  have h1 := State.tReadBit_ideal h
  rw [r1] at h1
  refine ⟨_, { s with
    line := .ideal { IdealBus.at' population A k with phase := .direction }
    history := .tReadBit (A.all fun a => !abit a k) :: .tReadBit (A.all fun a => abit a k) :: s.history },
    h1, ?_, rfl, rfl, rfl, rfl, fun d => ?_⟩
  · rw [State.tReadBit_ideal rfl, r2]
  · refine ⟨_, State.tWriteBit_ideal rfl, ?_, rfl, rfl, rfl, rfl⟩
    simp [IdealBus.at', IdealBus.writeBit, hk]

/-- The direction taken on the ideal bus keeps to a participant, and is R114's choice where participants differ. -/
theorem direction_ideal {A : List Address} {k : Nat} {ld : Fin 65} {srch : Address} (hA : A ≠ []) :
    ((A.all fun a => abit a k) && A.all fun a => !abit a k) = false ∧
    (∃ a ∈ A, abit a k
      = direction ld srch k (A.all fun a => abit a k) (A.all fun a => !abit a k)) ∧
    ∀ a ∈ A, abit a k ≠ direction ld srch k (A.all fun a => abit a k) (A.all fun a => !abit a k) →
      (A.all fun a => abit a k) = false ∧ (A.all fun a => !abit a k) = false := by
  obtain ⟨a0, ha0⟩ := List.exists_mem_of_ne_nil A hA
  cases hb : A.all fun a => abit a k with
  | true =>
    have ones := List.all_eq_true.1 hb
    have hc : (A.all fun a => !abit a k) = false := by
      rw [List.all_eq_false]
      exact ⟨a0, ha0, by simp [ones a0 ha0]⟩
    rw [hc]
    exact ⟨rfl, ⟨a0, ha0, by simp [direction, ones a0 ha0]⟩, fun a ha => by simp [direction, ones a ha]⟩
  | false =>
    cases hc : A.all fun a => !abit a k with
    | true =>
      have zeros : ∀ a ∈ A, abit a k = false := by simpa using List.all_eq_true.1 hc
      exact ⟨rfl, ⟨a0, ha0, by simp [direction, zeros a0 ha0]⟩, fun a ha => by simp [direction, zeros a ha]⟩
    | false =>
      refine ⟨rfl, ?_, fun a ha _ => ⟨rfl, rfl⟩⟩
      obtain ⟨a1, h1, e1⟩ := List.all_eq_false.1 hb
      obtain ⟨a2, h2, e2⟩ := List.all_eq_false.1 hc
      cases direction ld srch k false false with
      | true => exact ⟨a2, h2, by simpa using e2⟩
      | false => exact ⟨a1, h1, by simpa using e1⟩

/-- One position of the loop on the ideal bus keeps the loop's invariant and issues three primitives. -/
theorem searching_position {population : List Address} {ld : Fin 65} {srch : Address} {n k : Nat} {z : Fin 65}
    {s : State} (hk : 1 ≤ k ∧ k ≤ 64) (h : Searching population ld srch k z s) :
    ∃ z' t, searchFrom (n + 1) k z s = searchFrom n (k + 1) z' t ∧
      Searching population ld srch (k + 1) z' t ∧ t.lastDevice = s.lastDevice ∧
      primitives t.history = primitives s.history + 3 := by
  obtain ⟨A, line, hA, mem⟩ := h.line
  obtain ⟨s1, s2, e1, e2, srch2, ld2, last2, hist2, next⟩ := position_ideal hk.2 line
  obtain ⟨both, keeps, leaves⟩ := direction_ideal (ld := s2.ld) (srch := s2.srch) (k := k) hA
  generalize hd : direction s2.ld s2.srch k (A.all fun a => abit a k) (A.all fun a => !abit a k) = d at *
  obtain ⟨s3, e3, line3, path, ld3, last3, hist3⟩ := next d
  have step : searchFrom (n + 1) k z s = searchFrom n (k + 1)
      (nextLastZero k (A.all fun a => abit a k) (A.all fun a => !abit a k) d z) s3 := by
    rw [searchFrom, e1]
    simp only [e2, State.branch_some both, hd, e3]
  have atK : abit (setAbit s.srch k d) k = d := by rw [abit_setAbit_of_range hk hk, if_pos rfl]
  have before : ∀ a, agreeBefore (k + 1) a (setAbit s.srch k d) ↔ agreeBefore k a s.srch ∧ abit a k = d := by
    intro a
    rw [← agreeBefore_setAbit hk (d := d)]
    constructor
    · intro g
      exact ⟨g.mono (Nat.le_succ k), by rw [g k hk.1 (by omega), atK]⟩
    · rintro ⟨g, e⟩
      exact g.succ (by rw [e, atK])
  have zlt : z.val < k ∨ z = 0 := by
    rcases h.zero with hz | hz
    · exact .inr hz
    · exact .inl hz.1
  have zle : z.val ≤ k := by
    rcases zlt with hz | hz
    · omega
    · simp [hz]
  have grows : z.val ≤ (nextLastZero k (A.all fun a => abit a k) (A.all fun a => !abit a k) d z).val := by
    unfold nextLastZero
    split
    · simpa [Fin.ofNat, Nat.mod_eq_of_lt (by omega : k < 65)] using zle
    · exact le_refl _
  refine ⟨_, _, step, ?_, ?_, ?_⟩
  · refine ⟨⟨_, line3, ?_, ?_⟩, ld3.trans h.ldEq, ?_, ?_, ?_⟩
    · obtain ⟨a, ha, e⟩ := keeps
      exact List.ne_nil_of_mem (List.mem_filter.2 ⟨ha, by simp [e]⟩)
    · intro a
      rw [path, before, List.mem_filter, mem]
      simp [and_assoc]
    · intro j h1 h2
      rw [path, abit_setAbit_of_range hk ⟨by omega, h2⟩, if_neg (by omega)]
      exact h.ahead j (by omega) h2
    · intro b hb j hj diff
      rw [path] at diff ⊢
      by_cases hjk : j = k
      · subst hjk
        have inA : b ∈ A := (mem b).2 ⟨hb, (agreeBefore_setAbit hk).1 diff.2.2.1⟩
        have away : abit b j ≠ d := by rw [← atK]; exact diff.2.2.2
        obtain ⟨h0, h1⟩ := leaves b inA away
        rw [atK]
        constructor
        · rw [← hd, h0, h1]
          simp only [direction, bne_self_eq_false, Bool.false_eq_true, if_false, ld2, srch2, h.ldEq,
            h.ahead j (le_refl j) hk.2]
          split <;> rfl
        · intro hd0
          subst hd0
          simp [nextLastZero, h0, h1, Fin.ofNat, Nat.mod_eq_of_lt (by omega : j < 65)]
      · have hlt : j < k := by omega
        rw [firstDiff_setAbit_lt hk hlt] at diff
        have := h.choice b hb j hlt diff
        rw [abit_setAbit_of_range hk ⟨diff.1, diff.2.1⟩, if_neg hjk]
        exact ⟨this.1, fun e => le_trans (this.2 e) grows⟩
    · rw [path]
      by_cases hz : ((A.all fun a => abit a k) == (A.all fun a => !abit a k) && !d) = true
      · right
        have hz2 := (Bool.and_eq_true _ _).mp hz
        have hd0 : d = false := by simpa using hz2.2
        have hc : (A.all fun a => !abit a k) = false := by
          rw [beq_iff_eq.1 hz2.1, Bool.and_self] at both
          exact both
        obtain ⟨b, hb, e⟩ := List.all_eq_false.1 hc
        have bit : abit b k = true := by simpa using e
        have val : (nextLastZero k (A.all fun a => abit a k) (A.all fun a => !abit a k) d z).val = k := by
          simp [nextLastZero, hz, Fin.ofNat, Nat.mod_eq_of_lt (by omega : k < 65)]
        rw [val, atK]
        refine ⟨by omega, b, ((mem b).1 hb).1, ⟨hk.1, hk.2, ?_, ?_⟩, hd0⟩
        · exact (agreeBefore_setAbit hk).2 ((mem b).1 hb).2
        · rw [atK, bit, hd0]
          simp
      · have val : nextLastZero k (A.all fun a => abit a k) (A.all fun a => !abit a k) d z = z := by
          simp [nextLastZero, hz]
        rw [val]
        rcases h.zero with hz0 | ⟨hlt, b, hb, diff, bit⟩
        · exact .inl hz0
        · refine .inr ⟨by omega, b, hb, (firstDiff_setAbit_lt hk hlt).2 diff, ?_⟩
          rw [abit_setAbit_of_range hk ⟨diff.1, diff.2.1⟩, if_neg (by omega)]
          exact bit
  · exact last3
  · rw [hist3, hist2]
    simp [primitives, List.countP_cons, Event.isPrimitive]

/-- The loop of R114 on the ideal bus yields, and lands at a device. -/
theorem searching_lands {population : List Address} {ld : Fin 65} {srch : Address} {n k : Nat} {z : Fin 65}
    {s : State} (hn : n + k = 65) (hk : 1 ≤ k) (h : Searching population ld srch k z s)
    (last : s.lastDevice = false) :
    ∃ t, searchFrom n k z s = .found t ∧ Landing population ld srch t ∧
      primitives t.history = primitives s.history + 3 * n := by
  induction n generalizing k z s with
  | zero =>
    have hk65 : k = 65 := by omega
    subst hk65
    obtain ⟨A, line, hA, mem⟩ := h.line
    obtain ⟨a, ha⟩ := List.exists_mem_of_ne_nil A hA
    obtain ⟨haP, agree⟩ := (mem a).1 ha
    have eq : a = s.srch := eq_of_abit fun j hj => agree j hj.1 (by omega)
    refine ⟨_, rfl, ⟨?_, rfl, ?_, ?_, ?_, ?_⟩, rfl⟩
    · rw [State.yieldAddress_srch, ← eq]
      exact haP
    · intro b hb j diff
      exact h.choice b hb j (by have := diff.2.1; omega) diff
    · rcases h.zero with hz | hz
      · exact .inl hz
      · exact .inr hz.2
    · simp [last]
    · exact ⟨_, line, rfl⟩
  | succ n ih =>
    obtain ⟨z', t, e, inv, lastT, count⟩ := searching_position (n := n) ⟨hk, by omega⟩ h
    obtain ⟨u, found, landing, count'⟩ := ih (by omega) (by omega) inv (lastT.trans last)
    exact ⟨u, e.trans found, landing, by omega⟩

/-- ITER_STEP on the ideal bus with some device, from an iterator that is not exhausted: it yields, with 194
primitives (R62, R118, R119). -/
theorem iterStep_ideal_found {population : List Address} {s : State} (bus : s.OnIdealBus population)
    (devices : population ≠ []) (last : s.lastDevice = false) :
    ∃ t, iterStep s = .found t ∧ Landing population s.ld s.srch t ∧
      primitives t.history = primitives s.history + 194 := by
  obtain ⟨bus, line, pop⟩ := bus
  have presence : (!bus.population.isEmpty) = true := by
    rw [pop]
    cases population <;> simp_all
  have e := State.tReset_ideal line
  rw [presence] at e
  have w := State.tWriteByte_ideal (v := s.params.searchCmd)
    (s := { s with line := .ideal bus.reset.2, history := .tReset true :: s.history }) rfl
  generalize hs2 : ({ s with
    line := .ideal (bus.reset.2.writeByte s.params.searchCmd s.params.searchCmd)
    history := .tWriteByte s.params.searchCmd :: .tReset true :: s.history } : State) = s2 at w
  have start : Searching population s.ld s.srch 1 0 s2 := by
    subst hs2
    refine ⟨⟨population, ?_, devices, ?_⟩, rfl, fun _ _ _ => rfl, ?_, .inl rfl⟩
    · simp [IdealBus.writeByte, IdealBus.reset, IdealBus.at', pop]
    · intro a
      constructor
      · exact fun ha => ⟨ha, fun j h1 h2 => by omega⟩
      · exact fun ha => ha.1
    · intro b hb j hj diff
      have := diff.1
      omega
  obtain ⟨t, found, landing, count⟩ := searching_lands (n := 64) (by omega) (le_refl 1) start
    (by subst hs2; exact last)
  refine ⟨t, ?_, landing, ?_⟩
  · rw [iterStep, if_neg (by simp [last]), searchBus, e]
    simp only [searchCommand, w]
    exact found
  · rw [count]
    subst hs2
    simp [primitives, List.countP_cons, Event.isPrimitive]

/-- ITER_STEP on the empty ideal bus finds nothing, after one T_RESET (R118 (a)). -/
theorem iterStep_ideal_empty {s : State} (bus : s.OnIdealBus []) (last : s.lastDevice = false) :
    ∃ t, iterStep s = .notFound t.iterRestart ∧ s.SameRegisters t ∧ t.addr = s.addr ∧ t.OnIdealBus [] ∧
      t.history = .tReset false :: s.history := by
  obtain ⟨bus, line, pop⟩ := bus
  have presence : (!bus.population.isEmpty) = false := by simp [pop]
  have e := State.tReset_ideal line
  rw [presence] at e
  refine ⟨_, ?_, (State.tReset_same e).1, (State.tReset_same e).2.1, ⟨_, rfl, pop⟩, rfl⟩
  rw [iterStep, if_neg (by simp [last]), searchBus, e]

theorem firstDiff_unique {j k : Nat} {a b : Address} (hj : firstDiff j a b) (hk : firstDiff k a b) : j = k := by
  rcases lt_trichotomy j k with h | h | h
  · exact absurd (hk.2.2.1 j hj.1 h) hj.2.2.2
  · exact h
  · exact absurd (hj.2.2.1 k hk.1 h) hk.2.2.2

/-- At the first difference, the one with 0 comes first. -/
theorem treeLt_of_firstDiff {k : Nat} {a b : Address} (h : firstDiff k a b) (ha : abit a k = false) :
    treeLt a b := by
  refine treeLt_iff.2 ⟨k, h, ha, ?_⟩
  have := h.2.2.2
  rw [ha] at this
  cases hb : abit b k <;> simp_all

theorem treeLt_firstDiff {k : Nat} {a b : Address} (h : firstDiff k a b) (lt : treeLt a b) : abit a k = false := by
  obtain ⟨j, hj, ha, -⟩ := treeLt_iff.1 lt
  rwa [firstDiff_unique h hj]

theorem treeLt_total {a b : Address} (h : a ≠ b) : treeLt a b ∨ treeLt b a := by
  obtain ⟨k, hk⟩ := exists_firstDiff h
  cases ha : abit a k with
  | false => exact .inl (treeLt_of_firstDiff hk ha)
  | true =>
    refine .inr (treeLt_of_firstDiff hk.symm ?_)
    have := hk.2.2.2
    rw [ha] at this
    cases hb : abit b k <;> simp_all

theorem treeLt_irrefl (a : Address) : ¬ treeLt a a := by
  intro h
  obtain ⟨k, hk, -⟩ := treeLt_iff.1 h
  exact hk.2.2.2 rfl

theorem treeLt_asymm {a b : Address} (h : treeLt a b) : ¬ treeLt b a := by
  intro g
  obtain ⟨k, hk, ha, hb⟩ := treeLt_iff.1 h
  rw [treeLt_firstDiff hk.symm g] at hb
  cases hb

theorem treeLt_trans {a b c : Address} (h : treeLt a b) (g : treeLt b c) : treeLt a c := by
  obtain ⟨j, hj, ha, hb⟩ := treeLt_iff.1 h
  obtain ⟨k, hk, hb', hc⟩ := treeLt_iff.1 g
  rcases lt_trichotomy j k with hlt | rfl | hlt
  · have e := hk.2.2.1 j hj.1 hlt
    refine treeLt_of_firstDiff ⟨hj.1, hj.2.1, hj.2.2.1.trans (hk.2.2.1.mono hlt.le), ?_⟩ ha
    rw [ha, ← e, hb]
    simp
  · rw [hb] at hb'
    cases hb'
  · have e := hj.2.2.1 k hk.1 hlt
    refine treeLt_of_firstDiff ⟨hk.1, hk.2.1, (hj.2.2.1.mono hlt.le).trans hk.2.2.1, ?_⟩ (e.trans hb')
    rw [e, hb', hc]
    simp

/-- The iterator stands at a device of the ideal bus: `LD` is the deepest position where a later device branched
off, and LAST_DEVICE says that there is none (R22, R23). -/
structure Standing (population : List Address) (s : State) : Prop where
  member : s.srch ∈ population
  later : ∀ b ∈ population, ∀ j, firstDiff j b s.srch → abit s.srch j = false → j ≤ s.ld.val
  branch : s.ld = 0 ∨ ∃ b ∈ population, firstDiff s.ld.val b s.srch ∧ abit s.srch s.ld.val = false
  lastDevice : s.lastDevice = (s.ld == 0)
  line : s.OnIdealBus population

theorem Landing.standing {population : List Address} {ld : Fin 65} {srch : Address} {t : State}
    (h : Landing population ld srch t) : Standing population t :=
  ⟨h.member, fun b hb j diff e => (h.choice b hb j diff).2 e, h.zero, h.lastDevice, h.line⟩

/-- From a rewound iterator, or any other whose LD is 0, the step lands at the first device in tree order. -/
theorem Landing.first {population : List Address} {srch : Address} {t : State}
    (h : Landing population 0 srch t) : ∀ b ∈ population, b ≠ t.srch → treeLt t.srch b := by
  intro b hb ne
  obtain ⟨j, diff⟩ := exists_firstDiff ne
  refine treeLt_of_firstDiff diff.symm ?_
  rw [(h.choice b hb j diff).1]
  have := diff.1
  simp
  omega

/-- From where it stands, the step lands at the next device in tree order. -/
theorem Standing.next {population : List Address} {s t : State} (h : Standing population s) (ne : s.ld ≠ 0)
    (land : Landing population s.ld s.srch t) :
    treeLt s.srch t.srch ∧
      ∀ b ∈ population, treeLt s.srch b → b ≠ t.srch → treeLt t.srch b := by
  obtain ⟨b0, hb0, diff0, zero0⟩ := h.branch.resolve_left ne
  have turn : ∀ {x : Address}, agreeBefore s.ld.val s.srch x → x = t.srch → abit t.srch s.ld.val = true ∨
      abit b0 s.ld.val = abit t.srch s.ld.val := by
    intro x agree hx
    subst hx
    by_cases e : abit b0 s.ld.val = abit t.srch s.ld.val
    · exact .inr e
    · left
      have diff : firstDiff s.ld.val b0 t.srch := ⟨diff0.1, diff0.2.1, diff0.2.2.1.trans agree, e⟩
      rw [(land.choice b0 hb0 _ diff).1, if_neg (lt_irrefl _)]
      simp
  have one0 : abit b0 s.ld.val = true := by
    have := diff0.2.2.2
    rw [zero0] at this
    cases hb : abit b0 s.ld.val <;> simp_all
  have oneT : agreeBefore s.ld.val s.srch t.srch → abit t.srch s.ld.val = true := by
    intro agree
    rcases turn agree rfl with e | e
    · exact e
    · rw [← e, one0]
  have apart : s.srch ≠ t.srch := by
    intro e
    have := oneT (by rw [e]; intro j _ _; rfl)
    rw [← e, zero0] at this
    cases this
  obtain ⟨j, diff⟩ := exists_firstDiff apart
  have choice := (land.choice s.srch h.member j diff).1
  have ge : s.ld.val ≤ j := by
    by_contra lt
    rw [if_pos (by omega)] at choice
    exact diff.2.2.2 choice.symm
  have eq : j = s.ld.val := by
    have one := oneT (diff.2.2.1.mono ge)
    by_contra hne
    have same := diff.2.2.1 s.ld.val diff0.1 (by omega)
    rw [one, zero0] at same
    cases same
  subst eq
  refine ⟨treeLt_of_firstDiff diff zero0, ?_⟩
  intro b hb lt bne
  obtain ⟨m, diffM⟩ := exists_firstDiff (a := s.srch) (b := b) (by rintro rfl; exact treeLt_irrefl _ lt)
  have zeroM := treeLt_firstDiff diffM lt
  have leM := h.later b hb m diffM.symm zeroM
  obtain ⟨i, diffI⟩ := exists_firstDiff bne
  refine treeLt_of_firstDiff diffI.symm ?_
  have choiceI := (land.choice b hb i diffI).1
  rcases lt_trichotomy i s.ld.val with hi | hi | hi
  · rw [if_pos hi] at choiceI
    have away : firstDiff i s.srch b := by
      refine ⟨diffI.1, diffI.2.1, (diff.2.2.1.mono hi.le).trans diffI.2.2.1.symm, ?_⟩
      rw [diff.2.2.1 i diffI.1 hi]
      exact diffI.2.2.2.symm
    rw [choiceI]
    exact treeLt_firstDiff away lt
  · exfalso
    subst hi
    have one := oneT diff.2.2.1
    have zeroB : abit b s.ld.val = false := by
      have := diffI.2.2.2
      rw [one] at this
      cases hbb : abit b s.ld.val <;> simp_all
    have agree : agreeBefore s.ld.val s.srch b := diff.2.2.1.trans diffI.2.2.1.symm
    rcases Nat.lt_or_ge m s.ld.val with hm | hm
    · exact diffM.2.2.2 (agree m diffM.1 hm)
    · have hmL : m = s.ld.val := le_antisymm leM hm
      rw [hmL] at diffM
      exact diffM.2.2.2 (zero0.trans zeroB.symm)
  · rw [choiceI, if_neg (by omega)]
    simp
    omega

/-- Where LAST_DEVICE is set, no device comes later in tree order. -/
theorem Standing.last {population : List Address} {s : State} (h : Standing population s)
    (last : s.lastDevice = true) : ∀ b ∈ population, b ≠ s.srch → treeLt b s.srch := by
  intro b hb ne
  obtain ⟨j, diff⟩ := exists_firstDiff ne
  have ld0 : s.ld = 0 := by
    have := h.lastDevice
    rw [last] at this
    simpa using this.symm
  refine treeLt_of_firstDiff diff ?_
  cases hs : abit s.srch j with
  | false =>
    have := h.later b hb j diff hs
    rw [ld0] at this
    have := diff.1
    simp at *
    omega
  | true =>
    have := diff.2.2.2
    rw [hs] at this
    cases hbb : abit b j <;> simp_all

end Sys2Proof.Machine
end

