-- ==== Sys2Proof/Laws/PerInstr.lean ====
section
/-! SUPPORT. Statements made of every command as syntax, one lemma per constructor. -/

namespace Sys2Proof.Laws.EncodedForm

/-- A command's encoding is one well-formed command (spec/30_encoding.md R84), and decodes whole to it. -/
def Statement (i : Instr) : Prop :=
  wellFormedCommand (encode i) = true ∧ decode (encode i) = .command i []

theorem fullScan : Statement .fullScan := ⟨rfl, rfl⟩

theorem stepNext : Statement .stepNext := ⟨rfl, rfl⟩

theorem confirmPresent (a : Address) : Statement (.confirmPresent a) := ⟨rfl, rfl⟩

theorem loadAddress (a : Address) : Statement (.loadAddress a) := ⟨rfl, rfl⟩

theorem restart : Statement .restart := ⟨rfl, rfl⟩

theorem getResult : Statement .getResult := ⟨rfl, rfl⟩

theorem getCount : Statement .getCount := ⟨rfl, rfl⟩

theorem getFamily : Statement .getFamily := ⟨rfl, rfl⟩

theorem getId : Statement .getId := ⟨rfl, rfl⟩

theorem getPin : Statement .getPin := ⟨rfl, rfl⟩

theorem getAddress : Statement .getAddress := ⟨rfl, rfl⟩

theorem getSerial : Statement .getSerial := ⟨rfl, rfl⟩

theorem getIsSuccess : Statement .getIsSuccess := ⟨rfl, rfl⟩

theorem getIsError : Statement .getIsError := ⟨rfl, rfl⟩

end Sys2Proof.Laws.EncodedForm
end

