-- ==== Sys2Proof/Tests/Slice0.lean ====
section
/-! SUPPORT. The model's own tests. Expected values are from spec/95_test_vectors.md (V1 to V44, P1 to P4) and from
the encodings of spec/30_encoding.md, and every statement with hypotheses has a witness that meets them. -/

namespace Sys2Proof.Tests

open Sys2Proof.Machine

/-! ### The devices and states of the vectors (spec/95_test_vectors.md, section 0) -/

def devA : Address := ⟨0x01, 0x23, 0x45, 0x67, 0x89, 0xAB, 0xCD, 0xE9⟩
def devB : Address := ⟨0x01, 0x01, 0x00, 0x00, 0x00, 0x00, 0x00, 0x0A⟩
def devC : Address := ⟨0x01, 0x02, 0x00, 0x00, 0x00, 0x00, 0x00, 0x53⟩
def devF : Address := ⟨0x28, 0x11, 0x22, 0x33, 0x44, 0x55, 0x66, 0x56⟩
def devW : Address := ⟨0x01, 0x02, 0x00, 0x00, 0x00, 0x00, 0x00, 0xD3⟩

/-- The reset state on an ideal bus. -/
def onBus (population : List Address) : State :=
  { State.reset with line := .ideal (IdealBus.quiet population) }

/-- The reset state with a list of transport answers and the completions of one ITER_STEP's writes. -/
def hearing (answers : List Bool) : State := { State.reset with line := .script answers 65 }

/-- The reset state with bytes at the port. -/
def sent (bytes : List Byte) : State := { State.reset with port := bytes }

/-- V35: the state after V10. -/
def scanned : State := { State.reset with addr := devA, count := 3, result := .success }

/-- The next state of an outcome, if there is one. -/
def nextOf : Result → Option State
  | .next t => some t
  | .fault _ => none
  | .refused _ => none

/-- A command's next state from a state. -/
def after (i : Instr) (s : State) : Option State := nextOf (exec i s)

/-! ### Well-formed bytes: one ill-formed string for each check -/

theorem test_wf_empty_refused : wellFormedCommand [] = false := by decide

theorem test_wf_reserved_refused : wellFormedCommand [0x06] = false := by decide

theorem test_wf_short_operand_refused : wellFormedCommand [0x03, 1, 2, 3, 4, 5, 6, 7] = false := by decide

theorem test_wf_extra_byte_refused : wellFormedCommand [0x01, 0x02] = false := by decide

theorem test_wf_whole_accepted : wellFormedCommand [0x04, 1, 2, 3, 4, 5, 6, 7, 8] = true := by decide

/-! ### Decoding: one word per constructor, written out from the table of R88 -/

theorem test_decode_fullScan : decode [0b00000001] = .command .fullScan [] := by decide

theorem test_decode_stepNext : decode [0b00000010, 0x01] = .command .stepNext [0x01] := by decide

/-- P2, command 3. -/
theorem test_decode_confirmPresent :
    decode [0b00000011, 0x01, 0x23, 0x45, 0x67, 0x89, 0xAB, 0xCD, 0xE9] = .command (.confirmPresent devA) [] := by
  decide

/-- P3, command 5. -/
theorem test_decode_loadAddress :
    decode [0b00000100, 0x02, 0x1C, 0xB8, 0x01, 0x00, 0x00, 0x01, 0xA2, 0x15]
      = .command (.loadAddress ⟨0x02, 0x1C, 0xB8, 0x01, 0x00, 0x00, 0x01, 0xA2⟩) [0x15] := by
  decide

theorem test_decode_restart : decode [0b00000101] = .command .restart [] := by decide

theorem test_decode_getResult : decode [0b00010000] = .command .getResult [] := by decide

theorem test_decode_getCount : decode [0b00010001] = .command .getCount [] := by decide

theorem test_decode_getFamily : decode [0b00010010] = .command .getFamily [] := by decide

theorem test_decode_getId : decode [0b00010011] = .command .getId [] := by decide

theorem test_decode_getPin : decode [0b00010100] = .command .getPin [] := by decide

theorem test_decode_getAddress : decode [0b00010101] = .command .getAddress [] := by decide

theorem test_decode_getSerial : decode [0b00010110] = .command .getSerial [] := by decide

theorem test_decode_getIsSuccess : decode [0b00010111] = .command .getIsSuccess [] := by decide

theorem test_decode_getIsError : decode [0b00011000] = .command .getIsError [] := by decide

/-- V36: the reserved opcodes it lists. -/
theorem test_decode_reserved : ∀ op ∈ [0x00, 0x06, 0x0F, 0x19, 0xF0, 0xFF], decode [op] = .reserved op [] := by
  decide

/-- R90: a command cut short. -/
theorem test_decode_short : decode [0x04, 1, 2, 3, 4, 5, 6, 7] = .incomplete := by decide

/-- Every opcode of WellFormed's table is one the decoder knows, and no other is. -/
theorem test_decode_agrees_with_wf :
    ∀ n ∈ List.range 256, definedOpcode (BitVec.ofNat 8 n)
      = !(decodeOpcode (BitVec.ofNat 8 n) [0, 0, 0, 0, 0, 0, 0, 0]
          == .reserved (BitVec.ofNat 8 n) [0, 0, 0, 0, 0, 0, 0, 0]) := by decide +kernel

/-- The table's numbering: byte 1, the operand's first byte, is bits 15..8. -/
theorem test_decodeTableWord_operand :
    decodeTableWord 72 0xE9CDAB896745230103 = some (.confirmPresent devA) := by decide

theorem test_decodeTableWord_short : decodeTableWord 8 0x04 = some (.loadAddress Address.zero) := by decide

theorem test_withFetchWord_runs :
    nextOf (step (State.reset.withFetchWord 8 0x05)) = after .restart State.reset := by decide

/-! ### The checksum engine -/

/-- V1. -/
theorem test_crc8_table :
    [[], [0x00], [0x01], [0x80], [0xFF], [0x01, 0x23, 0x45, 0x77, 0x89, 0xAB, 0xCD]].map crc8
      = [0x00, 0x00, 0x5E, 0x8C, 0x35, 0xD1] := by decide +kernel

/-- V2, which tells the readings of V7 apart. -/
theorem test_crc8_discriminator : crc8 [0x02, 0x1C, 0xB8, 0x01, 0x00, 0x00, 0x00] = 0xA2 := by decide +kernel

/-- R103: the all-zero address is valid. V31's is not. -/
theorem test_valid :
    valid Address.zero = true ∧ valid devA = true ∧ valid { devA with b3 := 0x77 } = false := by decide +kernel

/-! ### LOAD_ADDRESS, RESTART, getters, reserved opcodes -/

/-- V33: no family test. -/
theorem test_load_foreign :
    (after (.loadAddress devF) State.reset).map (fun t => (t.result, t.addr)) = some (.success, devF) := by decide +kernel

/-- V34: a wrong checksum byte clears ADDR. -/
theorem test_load_mismatch :
    (after (.loadAddress { devA with b7 := 0xE8 }) { State.reset with addr := devB }).map
      (fun t => (t.result, t.addr)) = some (.crcMismatch, Address.zero) := by decide +kernel

/-- V37: from the state after V15 call 1. -/
theorem test_restart :
    (after .restart { scanned with srch := devC, addr := devC, ld := 9, matchSeen := true }).map
      (fun t => (t.srch, t.ld, t.addr, t.matchSeen, t.result))
      = some (Address.zero, 0, devC, true, .success) := by decide

/-- The payload of a getter in a state. -/
def payload (i : Instr) (s : State) : Option (Option Event) := (after i s).map fun t => t.history.head?

theorem test_getResult : payload .getResult State.reset = some (some (.response .ack [0x02])) := by decide

theorem test_getCount : payload .getCount scanned = some (some (.response .ack [0x03])) := by decide

theorem test_getFamily :
    payload .getFamily { scanned with addr := devF } = some (some (.response .ack [0x28])) := by decide

theorem test_getId : payload .getId scanned = some (some (.response .ack [0x23])) := by decide

theorem test_getId_six :
    payload .getId { scanned with params := { Params.reference with idSerialByte := 5 } }
      = some (some (.response .ack [0xCD])) := by decide

theorem test_getPin : payload .getPin State.reset = some (some (.response .ack [0x04])) := by decide

theorem test_getAddress :
    payload .getAddress scanned
      = some (some (.response .ack [0x01, 0x23, 0x45, 0x67, 0x89, 0xAB, 0xCD, 0xE9])) := by decide

theorem test_getSerial :
    payload .getSerial scanned = some (some (.response .ack [0x23, 0x45, 0x67, 0x89, 0xAB, 0xCD])) := by decide

/-- R158's truth table, both predicates. -/
theorem test_predicates :
    [ResultCode.success, .endOfEnum, .noDevice, .crcMismatch].map
      (fun r => (flagByte (isSuccess r), flagByte (isError r)))
      = [(0x01, 0x00), (0x00, 0x00), (0x00, 0x01), (0x00, 0x01)] := by decide

/-- P3, command 8. -/
theorem test_reserved_answer :
    (nextOf (step (sent [0x07, 0x10]))).map (fun t => (t.port, t.result, t.history))
      = some ([0x10], .noDevice, [.response .illegal [], .accepted 0x07 []]) := by decide

/-! ### The iterator and the three commands that drive it, one step each -/

/-- V9, step 1: yields DC with LD = 9. -/
theorem test_iterStep_first :
    (match iterStep (onBus [devA, devB, devC]) with
      | .found t => some (t.addr, t.srch, t.ld, t.lastDevice)
      | .notFound _ => none
      | .waits _ _ => none) = some (devC, devC, 9, false) := by decide +kernel

/-- V9, step 3: entered at DB with LD = 10, yields DA and exhausts the tree. -/
theorem test_iterStep_last :
    (match iterStep { onBus [devA, devB, devC] with srch := devB, ld := 10 } with
      | .found t => some (t.addr, t.ld, t.lastDevice)
      | .notFound _ => none
      | .waits _ _ => none) = some (devA, 0, true) := by decide +kernel

/-- V22 (a): the targeted step takes the 1-branch at position 64. -/
theorem test_iterTarget_corner :
    (match iterStep ((onBus [devC, devW]).iterTarget 0x01) with
      | .found t => some (t.addr, t.lastDevice)
      | .notFound _ => none
      | .waits _ _ => none) = some (devW, true) := by decide +kernel

/-- V13: a foreign device is not counted, and ADDR holds it. -/
theorem test_fullScan_foreign :
    (after .fullScan (onBus [devF])).map (fun t => (t.result, t.count, t.addr, t.ld, t.busy))
      = some (.noDevice, 0, devF, 0, false) := by decide +kernel

/-- P1, command 1, on the two devices DF and DB: one of them counts. -/
theorem test_fullScan_counts :
    (after .fullScan (onBus [devF, devB])).map (fun t => (t.result, t.count, t.addr, primitives t.history))
      = some (.success, 1, devB, 388) := by decide +kernel

/-- V15, call 1. -/
theorem test_stepNext_first :
    (after .stepNext (onBus [devA, devC])).map (fun t => (t.result, t.addr, t.ld, t.matchSeen))
      = some (.success, devC, 9, true) := by decide +kernel

/-- V15, call 4. -/
theorem test_stepNext_end :
    (after .stepNext { onBus [devA] with srch := devA, addr := devA, lastDevice := true, matchSeen := true }).map
      (fun t => (t.result, t.addr, t.srch, t.matchSeen)) = some (.endOfEnum, devA, Address.zero, false) := by decide

/-- V25: `crc_only` looks at the operand's checksum byte alone. -/
theorem test_confirm_crcOnly :
    (after (.confirmPresent { Address.zero with b7 := 0x0A }) (onBus [devB])).map (fun t => (t.result, t.addr, t.ld))
      = some (.success, devB, 0) := by decide +kernel

/-- V25 under `full`. -/
theorem test_confirm_full :
    (after (.confirmPresent { Address.zero with b7 := 0x0A })
      { onBus [devB] with params := { Params.reference with presentCompare := .full } }).map
      (fun t => (t.result, t.addr)) = some (.noDevice, devB) := by decide +kernel

/-- R52: a command waits for the transport, and goes on when the answer comes. -/
theorem test_wait_and_resume :
    (after .fullScan (hearing [])).map (fun t => t.control) = some (.running (.fullScan 0) .presence) ∧
    (nextOf (step { hearing [false] with control := .running (.fullScan 0) .presence })).map
      (fun t => (t.busy, t.result, t.count)) = some (false, .noDevice, 0) := by decide

/-- R191: reset abandons a command in progress without a response. -/
theorem test_reset_while_busy :
    (nextOf (step { scanned with control := .running (.fullScan 0) .presence, resetRequest := true })).map
      (fun t => (t.busy, t.result, t.count, t.addr, t.history)) = some (false, .noDevice, 0, Address.zero, []) := by
  decide

/-! ### Witnesses: for every statement with hypotheses, states and operands that meet them -/

/-- An outcome that is a next state with a property. -/
theorem next_of {r : Result} (p : State → Bool) (h : (nextOf r).any p = true) : ∃ t, r = .next t ∧ p t = true := by
  cases r with
  | next t => exact ⟨t, rfl, h⟩
  | fault r => simp [nextOf] at h
  | refused r => simp [nextOf] at h

/-- The state of a step that yields. -/
def foundOf : IterResult → Option State
  | .found t => some t
  | .notFound _ => none
  | .waits _ _ => none

/-- The state of a step that reports "not found". -/
def notFoundOf : IterResult → Option State
  | .found _ => none
  | .notFound t => some t
  | .waits _ _ => none

theorem onBus_onIdealBus (population : List Address) : (onBus population).OnIdealBus population := ⟨_, rfl, rfl⟩

/-- A busy state: CONFIRM_PRESENT inside a search conversation, at the second read of the last position. -/
def confirming : State :=
  { hearing [true, true, false] with control := .running (.confirmPresent devA) (.complement 64 63 false) }

/-- A state in the middle of a step iteration, at V9's second yield, with a list of answers. -/
def midPass (answers : List Bool) : State :=
  { hearing answers with srch := devC, addr := devC, ld := 9, matchSeen := true, result := .success }

/-- One position where the devices agree on 1, and 63 discrepancies. -/
def mixedPairs : List (Bool × Bool) := (true, false) :: List.replicate 63 (false, false)

/-- Every position agrees on 0. -/
def agreedPairs : List (Bool × Bool) := List.replicate 64 (false, true)

/-- ReservedOpcodeIsAnsweredIllegal, at the ends of its three ranges. -/
theorem witness_reserved :
    (∀ op ∈ [0x00, 0x06, 0x0F, 0x19, 0xFF],
      (BitVec.toNat (w := 8) op = 0x00 ∨ (0x06 ≤ BitVec.toNat op ∧ BitVec.toNat op ≤ 0x0F) ∨ 0x19 ≤ BitVec.toNat op) ∧
      (sent [op, 0x05]).Idle ∧ (sent [op, 0x05]).resetRequest = false ∧ (sent [op, 0x05]).port = [op, 0x05]) := by
  decide

/-- DecoderTellsTheLength: the longest operand cut short, and none at all. -/
theorem witness_cut_short :
    ∀ operand ∈ [[], [1, 2, 3, 4, 5, 6, 7]], ∀ op ∈ [0x03, 0x04],
      operand.length < 8 ∧ (sent (op :: operand)).Idle ∧ (sent (op :: operand)).resetRequest = false ∧
      nextOf (step (sent (op :: operand))) = some (sent (op :: operand)) := by decide

/-- StepRunsTheDecodedCommand: both formats. -/
theorem witness_step_runs :
    (sent [0x02, 0x10]).Idle ∧ (sent [0x02, 0x10]).resetRequest = false ∧
    decode (sent [0x02, 0x10]).port = .command .stepNext [0x10] ∧
    decode (sent [0x03, 0, 0, 0, 0, 0, 0, 0, 0, 0x10]).port = .command (.confirmPresent Address.zero) [0x10] := by
  decide

/-- BusyBlockAcceptsNoCommand, StepKeepsTheInvariant, TransportAnswersAreTakenInOrder, ParametersAndPinAreConstant:
a busy state inside the invariant that takes a step. -/
theorem witness_busy :
    confirming.busy = true ∧ confirming.resetRequest = false ∧ confirming.Inv ∧
    confirming.line = .script [true, true, false] 65 ∧
    ∃ t, step confirming = .next t ∧ t.busy = true :=
  ⟨rfl, rfl, by decide, rfl, next_of _ (by decide +kernel)⟩

/-- The same statements, and EndOfEnumOnlyFromStepNext: the pass that ends with END_OF_ENUM. -/
theorem witness_end_of_enum :
    { midPass [false] with port := [0x02] }.Inv ∧
    ∃ t, step { midPass [false] with port := [0x02] } = .next t ∧ (t.result == .endOfEnum) = true :=
  ⟨by decide, next_of _ (by decide +kernel)⟩

/-- EndOfEnumOnlyFromStepNext and CrcMismatchOnlyFromLoadAddress: the code was there before. -/
theorem witness_code_kept :
    ∀ code ∈ [ResultCode.endOfEnum, .crcMismatch],
      nextOf (step { sent [0x10] with result := code }) = some
        { State.reset with result := code, history := [.response .ack [resultByte code], .accepted 0x10 []] } := by
  decide

/-- CrcMismatchOnlyFromLoadAddress: a load that sets it. -/
theorem witness_crc_mismatch :
    ∃ t, step (sent [0x04, 1, 0, 0, 0, 0, 0, 0, 0]) = .next t ∧ (t.result == .crcMismatch) = true :=
  next_of _ (by decide +kernel)

/-- ResetPutsRegistersAtResetValues. -/
theorem witness_reset : { confirming with resetRequest := true }.resetRequest = true := rfl

/-- PendingPrimitiveBlocksTheCommand: waiting at each of the four primitives, the direction at position 64. -/
theorem witness_pending :
    (∀ point ∈ [Await.presence, .value 1 0, .complement 64 63 false],
      point.legal = true ∧ point.inSearch = true ∧ point.isWrite = false ∧
      nextOf (step { hearing [] with control := .running .stepNext point })
        = some { hearing [] with control := .running .stepNext point }) ∧
    (∀ point ∈ [Await.command, .direction 64 64 true],
      point.legal = true ∧ point.inSearch = true ∧ point.isWrite = true ∧
      nextOf (step { State.reset with control := .running .stepNext point, line := .script [true] 0 })
        = some { State.reset with control := .running .stepNext point, line := .script [true] 0 }) := by
  decide +kernel

/-- R52, R191: a hang in the last write of a search ends only by the completion, here with a yield, or by reset. -/
theorem test_write_hang :
    (nextOf (step { State.reset with
        control := .running .stepNext (.direction 64 0 true), srch := devA, line := .script [] 1 })).map
      (fun t => (t.busy, t.result, t.addr, t.history.length)) = some (false, .success, devA, 2) ∧
    (nextOf (step { State.reset with
        control := .running .stepNext (.direction 64 0 true), srch := devA, resetRequest := true })).map
      (fun t => (t.busy, t.result, t.srch, t.history)) = some (false, .noDevice, Address.zero, []) := by decide +kernel

/-- ResumedCommandEqualsUninterrupted: one answer early and no completion, the rest late; and waiting at a read. -/
theorem witness_resumed :
    State.reset.resetRequest = false ∧
    (∃ u, exec .fullScan { State.reset with line := .script [true] 0 } = .next u ∧ u.busy = true) ∧
    ∃ u, exec .fullScan { State.reset with line := .script [true] 1 } = .next u ∧ u.busy = true :=
  ⟨rfl, next_of _ (by decide +kernel), next_of _ (by decide +kernel)⟩

/-- SilentTransportKeepsTheBlockBusy, for each of its three commands. -/
theorem witness_silent :
    (hearing []).Idle ∧ (hearing []).resetRequest = false ∧ (hearing []).lastDevice = false ∧
    (hearing []).line = .script [] 65 := by decide

/-- ChecksumIsLinear: the empty strings and seven bytes. -/
theorem witness_linear :
    ([] : List Byte).length = ([] : List Byte).length ∧ (checkedBytes devA).length = (checkedBytes devF).length := by
  decide

/-- SingleBitFlipIsDetected and LoadAddressRoundTrip: a valid address, the first and the last position. -/
theorem witness_flip :
    valid devA = true ∧ scanned.Idle ∧ (hearing []).Idle ∧
    ∀ k ∈ [1, 56, 57, 64], valid (setAbit devA k (!abit devA k)) = false := by decide +kernel

/-- LoadAddressResult: both branches. -/
theorem witness_load :
    State.reset.Idle ∧ crc8 [devA.b0, devA.b1, devA.b2, devA.b3, devA.b4, devA.b5, devA.b6] = devA.b7 ∧
    crc8 [0x01, 0, 0, 0, 0, 0, 0] ≠ 0 := by decide +kernel

/-- RestartRewindsTheIterator, the four statements about getters and NoPresenceEndsTheBusCommands ask for an idle
block; here in the middle of a pass, with no presence to come. -/
theorem witness_idle :
    (midPass [false, true]).Idle ∧ (midPass [false, true]).line = .script (false :: [true]) 65 ∧
    (midPass [false, true]).lastDevice = false := by decide

/-- StepNextAfterTheLastDevice, with and without a match seen. -/
theorem witness_last_device :
    ∀ seen ∈ [true, false],
      { State.reset with lastDevice := true, matchSeen := seen }.Idle ∧
      { State.reset with lastDevice := true, matchSeen := seen }.lastDevice = true := by decide

/-- IterStepFollowsTheAnswers and IterStepIssuesPrimitivesInOrder: every way a direction is chosen, with LD = 9. The
positions before 9, 9 itself and those after it are discrepancies, and LD becomes 64. -/
theorem witness_follows :
    (midPass (true :: (pairAnswers mixedPairs ++ [true]))).lastDevice = false ∧ mixedPairs.length = 64 ∧
    (∀ p ∈ mixedPairs, p ≠ (true, true)) ∧
    mixedPairs[1 - 1]? = some (true, false) ∧
    (∀ k ∈ [8, 9, 10, 64], mixedPairs[k - 1]? = some (false, false)) ∧
    (foundOf (iterStep (midPass (true :: (pairAnswers mixedPairs ++ [true]))))).map
      (fun t => (t.ld, t.lastDevice, t.addr)) = some (64, false, ⟨0x01, 0x01, 0, 0, 0, 0, 0, 0⟩) := by decide +kernel

/-- The same statements where LD becomes 0. -/
theorem witness_follows_last :
    (hearing (true :: (pairAnswers agreedPairs ++ []))).lastDevice = false ∧ agreedPairs.length = 64 ∧
    (∀ p ∈ agreedPairs, p ≠ (true, true)) ∧
    (foundOf (iterStep (hearing (true :: (pairAnswers agreedPairs ++ []))))).map
      (fun t => (t.ld, t.lastDevice)) = some (0, true) := by decide +kernel

/-- IterStepReportsNotFound (c) and IterStepPrimitiveCounts, aborted at position 1 and at position 64. -/
theorem witness_aborts :
    ∀ n ∈ [0, 63],
      (List.replicate n (false, false)).length < 64 ∧
      (∀ p ∈ List.replicate n (false, false), p ≠ (true, true)) ∧
      (notFoundOf (iterStep
          (hearing (true :: (pairAnswers (List.replicate n (false, false)) ++ true :: true :: [false]))))).map
        (fun t => primitives t.history) = some (2 + 3 * n + 2) := by decide +kernel

/-- IterStepReportsNotFound (a) and (b), IterStepPrimitiveCounts and IterStepFrame. -/
theorem witness_not_found :
    (∀ s ∈ [{ State.reset with lastDevice := true }, hearing [false]],
      (notFoundOf (iterFrom .entry s)).isSome = true) ∧
    (hearing [false]).lastDevice = false ∧ (hearing [false]).line = .script (false :: []) 65 := by decide

/-- IterStepFrame: from the second read of the last position. -/
theorem witness_frame :
    (foundOf (iterFrom (.complement 64 63 false) confirming)).map (fun t => t.addr == t.srch) = some true := by
  decide +kernel

/-- IterStepEndsWhateverIsAnswered: the least number of answers. -/
theorem witness_answers :
    (hearing (List.replicate 129 true)).line = .script (List.replicate 129 true) 65 ∧
    129 ≤ (List.replicate 129 true).length ∧ 65 ≤ 65 ∧ (onBus [devA]).line = .ideal (IdealBus.quiet [devA]) :=
  ⟨rfl, by simp, le_refl 65, rfl⟩

/-- The statements about the ideal bus: an idle, rewound block on the bus of V9, which has devices of the target
family, one of foreign devices, and an empty one. -/
theorem witness_bus :
    ∀ population ∈ [[devA, devB, devC], [devF], []],
      (onBus population).Idle ∧ (onBus population).OnIdealBus population ∧ population.Nodup ∧
      (onBus population).Rewound ∧ (onBus population).matchSeen = false ∧
      population.countP (qualifies (onBus population).params) < 256 := by
  intro population h
  refine ⟨rfl, onBus_onIdealBus _, ?_, ⟨rfl, rfl, rfl⟩, rfl, ?_⟩
  · revert population; decide
  · exact lt_of_le_of_lt (List.countP_le_length) (by revert population; decide)

/-- Their cases: devices of the target family, and none. -/
theorem witness_families :
    (∃ a ∈ [devA, devB, devC], family a = (onBus [devA, devB, devC]).params.targetFamily) ∧
    (∀ a ∈ [devF], family a ≠ (onBus [devF]).params.targetFamily) ∧
    (∀ a ∈ ([] : List Address), family a ≠ (onBus []).params.targetFamily) := by decide

/-- ConfirmPresentOnTheIdealBus: (a) with the operand's bit 64 set and, in the other case, clear; (b) an absent
address under `full`. -/
theorem witness_confirm :
    devA ∈ [devA, devB, devC] ∧ valid devA = true ∧ family devA = (onBus [devA, devB, devC]).params.targetFamily ∧
    abit devA 64 = true ∧
    valid devC = true ∧ abit devC 64 = false ∧ (∀ b ∈ [devA, devB, devC], agreeTo63 devC b → b = devC) ∧
    devF ∉ [devA, devB, devC] ∧
    { onBus [devA, devB, devC] with params := { Params.reference with presentCompare := .full } }.params.presentCompare
      = .full := by decide +kernel

/-- TargetedStepSkipsTheTwin: the two devices of V22. -/
theorem witness_twin :
    agreeTo63 devC devW ∧ abit devC 64 = false ∧ abit devW 64 = true ∧ (onBus [devC, devW]).OnIdealBus [devC, devW] :=
  ⟨by decide, by decide, by decide, onBus_onIdealBus _⟩

/-- IdealBusReadsAreAWiredAnd: the first and the last position. -/
theorem witness_wired_and :
    ∀ k ∈ [1, 64],
      { (IdealBus.quiet [devA]).writeByte 0xF0 0xF0 with position := k }.searching = true ∧ 1 ≤ k ∧ k ≤ 64 ∧
      { (IdealBus.quiet [devA]).writeByte 0xF0 0xF0 with position := k }.phase = .value := by decide

/-- A bus with 256 qualifying devices. -/
def crowd : List Address :=
  (List.range 256).map fun n =>
    ⟨0x01, BitVec.ofNat 8 n, 0, 0, 0, 0, 0, crc8 [0x01, BitVec.ofNat 8 n, 0, 0, 0, 0, 0]⟩

/-- FullScanRefusesA256thDevice. -/
theorem witness_crowd :
    (onBus crowd).Idle ∧ (onBus crowd).OnIdealBus crowd ∧ crowd.Nodup ∧
    256 ≤ crowd.countP (qualifies (onBus crowd).params) := by
  refine ⟨rfl, onBus_onIdealBus _, ?_, ?_⟩
  · refine List.Nodup.map_on ?_ List.nodup_range
    intro x hx y hy h
    have e := congrArg (fun a => BitVec.toNat (Address.b1 a)) h
    simp only [BitVec.toNat_ofNat] at e
    rw [List.mem_range] at hx hy
    omega
  · have all : ∀ a ∈ crowd, qualifies (onBus crowd).params a = true := by
      intro a h
      obtain ⟨n, -, rfl⟩ := List.mem_map.mp h
      simp [qualifies, valid, family, crcByte, checkedBytes, onBus, State.reset, State.resetWith, Params.reference]
    rw [List.countP_eq_length.mpr all]
    simp [crowd]

/-- FullScanCompletedState, EveryCommandEndsInOneResponse, BusCommandFrame and ResultCodeIsReported: FULL_SCAN ends
with SUCCESS, ends with NO_DEVICE, and waits. -/
theorem witness_full_scan :
    (∃ t, exec .fullScan (onBus [devB]) = .next t ∧ (!t.busy && t.result == .success) = true) ∧
    (∃ t, exec .fullScan (hearing [false]) = .next t ∧ (!t.busy && t.result == .noDevice) = true) ∧
    (∃ t, exec .fullScan (hearing [true]) = .next t ∧ t.busy = true) :=
  ⟨next_of _ (by decide +kernel), next_of _ (by decide +kernel), next_of _ (by decide +kernel)⟩

/-- StepNextCompletedState and the same statements for STEP_NEXT. -/
theorem witness_step_next :
    (∃ t, exec .stepNext (onBus [devB]) = .next t ∧ (!t.busy && t.result == .success) = true) ∧
    (∃ t, exec .stepNext (midPass [false]) = .next t ∧ (!t.busy && t.result == .endOfEnum) = true) ∧
    (∃ t, exec .stepNext (midPass [true]) = .next t ∧ t.busy = true) :=
  ⟨next_of _ (by decide +kernel), next_of _ (by decide +kernel), next_of _ (by decide +kernel)⟩

/-- ConfirmPresentCompletedState and the same statements for CONFIRM_PRESENT. -/
theorem witness_confirm_present :
    (∃ t, exec (.confirmPresent devB) (onBus [devB]) = .next t ∧ (!t.busy && t.result == .success) = true) ∧
    (∃ t, exec (.confirmPresent devB) (hearing [false]) = .next t ∧ (!t.busy && t.result == .noDevice) = true) ∧
    (∃ t, exec (.confirmPresent devB) (hearing []) = .next t ∧ t.busy = true) :=
  ⟨next_of _ (by decide +kernel), next_of _ (by decide +kernel), next_of _ (by decide +kernel)⟩

/-- RegisterWriters and the second half of ResultCodeIsReported: every other command answers a next state. -/
theorem witness_register_writers :
    ∀ i ∈ [Instr.loadAddress devB, .restart, .getResult, .getCount, .getFamily, .getId, .getPin, .getAddress,
      .getSerial, .getIsSuccess, .getIsError], (after i scanned).isSome = true := by decide +kernel

end Sys2Proof.Tests
end

section
/-! Facts about every command and every way out of the iterator's loop, and the statements about reset, the invariant
and the writers of the registers. -/

namespace Sys2Proof.Machine

/-! ### The commands that do not drive the iterator -/

/-- The block, idle, responded at once to a command without the transport. The iterator is as it was or rewound. -/
structure State.Responded (s t : State) : Prop where
  wasIdle : s.Idle
  idle : t.Idle
  params : t.params = s.params
  pin : t.pin = s.pin
  matchSeen : t.matchSeen = s.matchSeen
  count : t.count = s.count
  line : t.line = s.line
  iterator : (t.srch = s.srch ∧ t.ld = s.ld ∧ t.lastDevice = s.lastDevice) ∨ t.Rewound

theorem State.answer_responded {i : Instr} {payload : State → List Byte} {s t : State}
    (h : s.answer i payload = .next t) : s.Responded t ∧ t.addr = s.addr := by
  obtain ⟨idle, body⟩ := State.accept_next h
  cases body
  exact ⟨⟨idle, rfl, rfl, rfl, rfl, rfl, rfl, .inl ⟨rfl, rfl, rfl⟩⟩, rfl⟩

theorem execRestart_responded {s t : State} (h : execRestart s = .next t) : s.Responded t ∧ t.addr = s.addr := by
  obtain ⟨idle, body⟩ := State.accept_next h
  cases body
  exact ⟨⟨idle, rfl, rfl, rfl, rfl, rfl, rfl, .inr ⟨rfl, rfl, rfl⟩⟩, rfl⟩

theorem execLoadAddress_responded {a : Address} {s t : State} (h : execLoadAddress a s = .next t) :
    s.Responded t := by
  obtain ⟨idle, body⟩ := State.accept_next h
  dsimp only at body
  split at body <;> cases body <;> exact ⟨idle, rfl, rfl, rfl, rfl, rfl, rfl, .inl ⟨rfl, rfl, rfl⟩⟩

/-- A command drives the iterator, or it responds at once; then only LOAD_ADDRESS writes ADDR. -/
theorem exec_next_cases {i : Instr} {s t : State} (h : exec i s = .next t) :
    (i = .fullScan ∨ i = .stepNext ∨ ∃ a, i = .confirmPresent a) ∨
      s.Responded t ∧ ((∀ a, i ≠ .loadAddress a) → t.addr = s.addr) := by
  have answered {payload : State → List Byte} (h : s.answer i payload = .next t) :
      s.Responded t ∧ ((∀ a, i ≠ .loadAddress a) → t.addr = s.addr) :=
    ⟨(State.answer_responded h).1, fun _ => (State.answer_responded h).2⟩
  cases i with
  | fullScan => exact .inl (.inl rfl)
  | stepNext => exact .inl (.inr (.inl rfl))
  | confirmPresent a => exact .inl (.inr (.inr ⟨a, rfl⟩))
  | loadAddress a => exact .inr ⟨execLoadAddress_responded h, fun other => absurd rfl (other a)⟩
  | restart => exact .inr ⟨(execRestart_responded h).1, fun _ => (execRestart_responded h).2⟩
  | getResult => exact .inr (answered (show execGetResult s = .next t from h))
  | getCount => exact .inr (answered (show execGetCount s = .next t from h))
  | getFamily => exact .inr (answered (show execGetFamily s = .next t from h))
  | getId => exact .inr (answered (show execGetId s = .next t from h))
  | getPin => exact .inr (answered (show execGetPin s = .next t from h))
  | getAddress => exact .inr (answered (show execGetAddress s = .next t from h))
  | getSerial => exact .inr (answered (show execGetSerial s = .next t from h))
  | getIsSuccess => exact .inr (answered (show execGetIsSuccess s = .next t from h))
  | getIsError => exact .inr (answered (show execGetIsError s = .next t from h))

/-! ### Entering the three loops -/

theorem exec_fullScan (s : State) :
    exec .fullScan s = s.accept .fullScan fun s => fullScanLoop 0 .entry s.iterRestart := rfl

theorem exec_stepNext (s : State) : exec .stepNext s = s.accept .stepNext fun s => stepNextLoop .entry s := rfl

theorem exec_confirmPresent (a : Address) (s : State) :
    exec (.confirmPresent a) s = s.accept (.confirmPresent a) fun s =>
      confirmLoop a .entry (s.iterTarget s.params.targetFamily) := rfl

/-! ### What a step of the machine can do -/

theorem step_of_resetRequest {s : State} (h : s.resetRequest = true) : step s = .next s.takeReset := by
  simp [step, h]

theorem step_of_running {s : State} {task : BusTask} {point : Await} (noReset : s.resetRequest = false)
    (h : s.control = .running task point) : step s = resume task point s := by
  simp [step, noReset, h]

/-- Everything a step can do: take a reset, go on with the command in progress, or, when idle, take nothing, a reserved
opcode or a command from the port. -/
theorem step_next_cases {s t : State} (h : step s = .next t) :
    s.resetRequest = true ∧ t = s.takeReset ∨ s.resetRequest = false ∧
      ((∃ task point, s.control = .running task point ∧ resume task point s = .next t) ∨
        s.Idle ∧ (t = s ∨
          (∃ opcode rest, decode s.port = .reserved opcode rest ∧ t = State.illegal opcode { s with port := rest }) ∨
          ∃ i rest, decode s.port = .command i rest ∧ exec i { s with port := rest } = .next t)) := by
  unfold step at h
  split at h
  · cases h
    exact .inl ⟨‹_›, rfl⟩
  · refine .inr ⟨by simp_all, ?_⟩
    split at h
    · exact .inl ⟨_, _, ‹_›, h⟩
    · refine .inr ⟨‹_›, ?_⟩
      split at h
      · cases h
        exact .inl rfl
      · cases h
        exact .inr (.inl ⟨_, _, ‹_›, rfl⟩)
      · exact .inr (.inr ⟨_, _, ‹_›, h⟩)

/-! ### What the loop around ITER_STEP keeps -/

theorem iterFrom_frame_of_eq {point : Await} {s : State} {r : IterResult} (h : iterFrom point s = r) : r.Frame s :=
  h ▸ iterFrom_frame point s

theorem iterLoop_again {α : Type} {task : α → BusTask} {onYield : α → State → LoopNext α} {onEnd : α → State → State}
    {n : Nat} {x x' : α} {point : Await} {s t : State} (found : iterFrom point s = .found t)
    (again : onYield x t = .again x') :
    iterLoop task onYield onEnd (n + 1) x point s = iterLoop task onYield onEnd n x' .entry t := by
  rw [iterLoop, found]
  simp only [again]

/-- A register that no iterator operation writes keeps its value through the loop, if the ways out of it keep it. -/
theorem iterLoop_keeps {α β : Type} {task : α → BusTask} {onYield : α → State → LoopNext α}
    {onEnd : α → State → State} {n : Nat} {x : α} {point : Await} {s t : State} (register : State → β)
    (h : iterLoop task onYield onEnd n x point s = .next t)
    (same : ∀ {s t : State}, s.SameRegisters t → register t = register s)
    (suspend : ∀ task point s, register (State.suspend task point s) = register s)
    (done : ∀ {x s t}, onYield x s = .done t → register t = register s)
    (ends : ∀ x s, register (onEnd x s) = register s) : register t = register s := by
  refine iterLoop_rule (fun _ _ u => register u = register s) (fun r => ∀ t, r = .next t → register t = register s)
    ?waits ?ends ?done ?refuse ?again ?rests n x point s rfl t h
  case waits =>
    intro x point u point' v kept out t e
    cases e
    rw [suspend, same (iterFrom_frame_of_eq out).1, kept]
  case ends =>
    intro x point u v kept out t e
    cases e
    rw [ends, same (iterFrom_frame_of_eq out).1, kept]
  case done =>
    intro x point u v w kept out yielded t e
    cases e
    rw [done yielded, same (iterFrom_frame_of_eq out).1, kept]
  case refuse => exact fun _ _ _ _ _ _ _ _ _ e => nomatch e
  case again =>
    intro x point u v x' kept out _
    rw [same (iterFrom_frame_of_eq out).1, kept]
  case rests =>
    intro x u kept t e
    cases e
    rw [suspend, kept]

/-- A qualifying device is counted or refused; FULL_SCAN's loop never ends at a yield (R131). -/
theorem fullScanYield_ne_done {n : Byte} {s t : State} : fullScanYield n s ≠ .done t := by
  unfold fullScanYield
  split
  · split <;> exact nofun
  · exact nofun

/-- STEP_NEXT ends at a yield of the target family, with MATCH_SEEN set (R133). -/
theorem stepNextYield_done {x : Unit} {s t : State} (h : stepNextYield x s = .done t) :
    family s.addr = s.params.targetFamily ∧ t = State.report .success { s with matchSeen := true } := by
  unfold stepNextYield at h
  split at h
  · cases h
    exact ⟨by simpa [targetFamily] using ‹targetFamily _ _ = true›, rfl⟩
  · cases h

/-- CONFIRM_PRESENT ends at a yield with the iterator rewound (R141). -/
theorem confirmYield_done {a : Address} {s t : State} (h : confirmYield a s = .done t) :
    t = s.iterRestart.report .success := by
  unfold confirmYield at h
  split at h <;> cases h
  rfl

theorem fullScanLoop_matchSeen {n : Byte} {point : Await} {s t : State} (h : fullScanLoop n point s = .next t) :
    t.matchSeen = s.matchSeen :=
  iterLoop_keeps State.matchSeen h (fun same => same.matchSeen) (fun _ _ _ => rfl)
    (fun out => absurd out fullScanYield_ne_done) (fun _ _ => rfl)

theorem stepNextLoop_count {point : Await} {s t : State} (h : stepNextLoop point s = .next t) :
    t.count = s.count :=
  iterLoop_keeps State.count h (fun same => same.count) (fun _ _ _ => rfl)
    (fun out => by rw [(stepNextYield_done out).2]; rfl) (fun _ _ => rfl)

theorem confirmLoop_count {a : Address} {point : Await} {s t : State} (h : confirmLoop a point s = .next t) :
    t.count = s.count :=
  iterLoop_keeps State.count h (fun same => same.count) (fun _ _ _ => rfl)
    (fun out => by rw [confirmYield_done out]; rfl) (fun _ _ => rfl)

theorem confirmLoop_matchSeen {a : Address} {point : Await} {s t : State} (h : confirmLoop a point s = .next t) :
    t.matchSeen = s.matchSeen :=
  iterLoop_keeps State.matchSeen h (fun same => same.matchSeen) (fun _ _ _ => rfl)
    (fun out => by rw [confirmYield_done out]; rfl) (fun _ _ => rfl)

/-- Settles O54: each command with a loop keeps the registers it does not write, and the others respond at once. -/
theorem registerWriters : Obligations.RegisterWriters := by
  unfold Obligations.RegisterWriters
  intro i s t h
  rcases exec_next_cases h with (rfl | rfl | ⟨a, rfl⟩) | ⟨at_once, addr⟩
  · rw [exec_fullScan] at h
    have loop := (State.accept_next h).2
    exact ⟨fun ne => absurd rfl ne, fun _ => (fullScanLoop_matchSeen loop :), fun ne => absurd rfl ne⟩
  · rw [exec_stepNext] at h
    have loop := (State.accept_next h).2
    exact ⟨fun _ => (stepNextLoop_count loop :), fun ne => absurd rfl ne, fun _ ne => absurd rfl ne⟩
  · rw [exec_confirmPresent] at h
    have loop := (State.accept_next h).2
    exact ⟨fun _ => (confirmLoop_count loop :), fun _ => (confirmLoop_matchSeen loop :),
      fun _ _ ne => absurd rfl (ne a)⟩
  · exact ⟨fun _ => at_once.count, fun _ => at_once.matchSeen, fun _ _ _ ne => ⟨addr ne, at_once.line⟩⟩

/-! ### Reset -/

/-- Settles O8: a step with reset asserted is `State.takeReset`, whatever the control point. -/
theorem resetPutsRegistersAtResetValues : Obligations.ResetPutsRegistersAtResetValues := by
  unfold Obligations.ResetPutsRegistersAtResetValues
  constructor
  · exact fun p => ⟨rfl, rfl, rfl, rfl, rfl, rfl, rfl, rfl, rfl⟩
  · intro s reset
    exact ⟨s.takeReset, step_of_resetRequest reset, rfl, rfl, rfl, rfl, rfl, rfl, rfl, rfl, rfl, rfl, rfl, rfl⟩

/-! ### The invariant -/

/-- An idle block with a rewound iterator is inside the invariant as soon as PIN is BUS_PIN (R27, R31 (c)). -/
theorem State.Inv.of_rewound {s : State} (pin : s.pin = s.params.busPin) (idle : s.Idle) (rewound : s.Rewound) :
    s.Inv :=
  ⟨pin, fun last => by simp [rewound.2.2] at last, by rw [idle]; rfl, fun _ => .inl rewound⟩

/-- Settles O9: right after reset the block is idle and its iterator rewound. -/
theorem invariantHoldsAfterReset : Obligations.InvariantHoldsAfterReset := by
  unfold Obligations.InvariantHoldsAfterReset
  exact fun p => State.Inv.of_rewound rfl rfl ⟨rfl, rfl, rfl⟩

/-- A command that responds at once keeps the invariant. -/
theorem State.Responded.keeps_inv {s t : State} (h : s.Responded t) (inv : s.Inv) : t.Inv := by
  obtain ⟨pin, last, -, between⟩ := inv
  have pin' : t.pin = t.params.busPin := by rw [h.pin, h.params, pin]
  rcases h.iterator with ⟨srch, ld, lastDevice⟩ | rewound
  · refine ⟨pin', by rwa [lastDevice, ld], by rw [h.idle]; rfl, fun _ => ?_⟩
    have := between h.wasIdle
    rwa [State.Rewound, srch, ld, lastDevice, h.params, h.matchSeen]
  · exact .of_rewound pin' h.idle rewound

/-- The invariant of the loop around ITER_STEP, about to go on from a point: that of the machine while a command
runs. -/
structure State.InvAt (point : Await) (s : State) : Prop where
  pin : s.pin = s.params.busPin
  last : s.lastDevice = true → s.ld = 0
  legal : point.legal = true
  active : point.inSearch = true → s.lastDevice = false

theorem State.inv_suspend {task : BusTask} {point : Await} {s : State} :
    (s.suspend task point).Inv ↔ s.InvAt point := by
  have control : Control.legal s.lastDevice (.running task point) = true ↔
      point.legal = true ∧ (point.inSearch = true → s.lastDevice = false) := by
    simp [Control.legal, imp_iff_not_or]
  constructor
  · rintro ⟨pin, last, point, -⟩
    exact ⟨pin, last, (control.1 point).1, (control.1 point).2⟩
  · rintro ⟨pin, last, legal, active⟩
    exact ⟨pin, last, control.2 ⟨legal, active⟩, fun idle => nomatch idle⟩

/-- An exhausted iterator only reports "not found", so a step that yields or waits began with LAST_DEVICE 0 (R114). -/
theorem State.InvAt.lastDevice_of_ne_notFound {point : Await} {s : State} (inv : s.InvAt point)
    (h : ∀ t, iterFrom point s ≠ .notFound t) : s.lastDevice = false := by
  cases point with
  | entry =>
    by_contra last
    exact h s.iterRestart (by simp [iterFrom, iterStep, last])
  | presence => exact inv.active rfl
  | command => exact inv.active rfl
  | value k z => exact inv.active rfl
  | complement k z b => exact inv.active rfl
  | direction k z d => exact inv.active rfl

/-- What a yield leaves, when the step began inside the loop's invariant. -/
theorem State.InvAt.found {point : Await} {s t : State} (inv : s.InvAt point) (h : iterFrom point s = .found t) :
    t.InvAt .entry ∧ t.addr = t.srch := by
  obtain ⟨same, addr, last⟩ := iterFrom_frame_of_eq h
  rw [inv.lastDevice_of_ne_notFound (by simp [h]), Bool.false_or] at last
  exact ⟨⟨by rw [same.pin, same.params, inv.pin], fun e => by simpa [last] using e, rfl, nofun⟩, addr⟩

/-- What a wait leaves. -/
theorem State.InvAt.waits {point point' : Await} {s t : State} (inv : s.InvAt point)
    (h : iterFrom point s = .waits point' t) : t.InvAt point' := by
  obtain ⟨same, -, -, last⟩ := iterFrom_frame_of_eq h
  have off : t.lastDevice = false := by rw [last, inv.lastDevice_of_ne_notFound (by simp [h])]
  exact ⟨by rw [same.pin, same.params, inv.pin], by simp [off], (iterFrom_waits inv.legal h).1, fun _ => off⟩

/-- The loop leads from its invariant to the machine's, if its two ways out do. -/
theorem iterLoop_keeps_inv {α : Type} {task : α → BusTask} {onYield : α → State → LoopNext α}
    {onEnd : α → State → State} {n : Nat} {x : α} {point : Await} {s t : State} (inv : s.InvAt point)
    (h : iterLoop task onYield onEnd n x point s = .next t)
    (done : ∀ {x s t}, s.InvAt .entry → s.addr = s.srch → onYield x s = .done t → t.Inv)
    (ends : ∀ {x s}, s.pin = s.params.busPin → s.Rewound → (onEnd x s).Inv) : t.Inv := by
  refine iterLoop_rule (fun _ point s => s.InvAt point) (fun r => ∀ t, r = .next t → t.Inv)
    ?waits ?ends ?done ?refuse ?again ?rests n x point s inv t h
  case waits =>
    intro x point s point' u inv out t e
    cases e
    exact State.inv_suspend.2 (inv.waits out)
  case ends =>
    intro x point s u inv out t e
    obtain ⟨same, -, rewound⟩ := iterFrom_frame_of_eq out
    cases e
    exact ends (by rw [same.pin, same.params, inv.pin]) rewound
  case done =>
    intro x point s u v inv out yielded t e
    cases e
    exact done (inv.found out).1 (inv.found out).2 yielded
  case refuse => exact fun _ _ _ _ _ _ _ _ _ e => nomatch e
  case again => exact fun _ _ _ _ _ inv out _ => (inv.found out).1
  case rests =>
    intro x s inv t e
    cases e
    exact State.inv_suspend.2 inv

theorem fullScanLoop_keeps_inv {n : Byte} {point : Await} {s t : State} (inv : s.InvAt point)
    (h : fullScanLoop n point s = .next t) : t.Inv := by
  exact iterLoop_keeps_inv inv h (fun _ _ out => absurd out fullScanYield_ne_done)
    (fun pin _ => .of_rewound pin rfl ⟨rfl, rfl, rfl⟩)

/-- A yield that ends STEP_NEXT leaves the search path in the target family (R31 (e), R133). -/
theorem stepNextLoop_keeps_inv {point : Await} {s t : State} (inv : s.InvAt point)
    (h : stepNextLoop point s = .next t) : t.Inv := by
  refine iterLoop_keeps_inv inv h (fun {x u v} inv addr out => ?_) (fun pin _ => .of_rewound pin rfl ⟨rfl, rfl, rfl⟩)
  obtain ⟨target, rfl⟩ := stepNextYield_done out
  exact ⟨inv.pin, inv.last, rfl, fun _ => .inr ⟨addr ▸ target, rfl⟩⟩

theorem confirmLoop_keeps_inv {a : Address} {point : Await} {s t : State} (inv : s.InvAt point)
    (h : confirmLoop a point s = .next t) : t.Inv := by
  refine iterLoop_keeps_inv inv h (fun {x u v} inv _ out => ?_) (fun pin _ => .of_rewound pin rfl ⟨rfl, rfl, rfl⟩)
  obtain rfl := confirmYield_done out
  exact .of_rewound inv.pin rfl ⟨rfl, rfl, rfl⟩

/-- A command in progress keeps the invariant as it goes on. -/
theorem resume_keeps_inv {task : BusTask} {point : Await} {s t : State} (inv : s.InvAt point)
    (h : resume task point s = .next t) : t.Inv := by
  cases task with
  | fullScan n => exact fullScanLoop_keeps_inv inv h
  | stepNext => exact stepNextLoop_keeps_inv inv h
  | confirmPresent a => exact confirmLoop_keeps_inv inv h

/-- A command given to an idle block keeps the invariant: the three that drive the iterator begin its loop inside the
loop's invariant. -/
theorem exec_keeps_inv {i : Instr} {s t : State} (inv : s.Inv) (h : exec i s = .next t) : t.Inv := by
  have ⟨pin, last, _, _⟩ := inv
  rcases exec_next_cases h with (rfl | rfl | ⟨a, rfl⟩) | ⟨at_once, -⟩
  · rw [exec_fullScan] at h
    refine fullScanLoop_keeps_inv ?_ (State.accept_next h).2
    exact ⟨pin, nofun, rfl, nofun⟩
  · rw [exec_stepNext] at h
    refine stepNextLoop_keeps_inv ?_ (State.accept_next h).2
    exact ⟨pin, last, rfl, nofun⟩
  · rw [exec_confirmPresent] at h
    refine confirmLoop_keeps_inv ?_ (State.accept_next h).2
    exact ⟨pin, nofun, rfl, nofun⟩
  · exact at_once.keeps_inv inv

/-- Settles O10, by the cases of `step`: reset, a command going on, nothing to take, a reserved opcode, a command. -/
theorem stepKeepsTheInvariant : Obligations.StepKeepsTheInvariant := by
  unfold Obligations.StepKeepsTheInvariant
  intro s t inv h
  rcases step_next_cases h with
    ⟨-, rfl⟩ | ⟨-, ⟨task, point, running, h⟩ | ⟨idle, rfl | ⟨opcode, rest, -, rfl⟩ | ⟨i, rest, -, h⟩⟩⟩
  · exact .of_rewound rfl rfl ⟨rfl, rfl, rfl⟩
  · have same : s.suspend task point = s := by rw [State.suspend, ← running]
    exact resume_keeps_inv (State.inv_suspend.1 (same ▸ inv)) h
  · exact inv
  · have at_once : s.Responded (State.illegal opcode { s with port := rest }) :=
      ⟨idle, rfl, rfl, rfl, rfl, rfl, rfl, .inl ⟨rfl, rfl, rfl⟩⟩
    exact at_once.keeps_inv inv
  · exact exec_keeps_inv (s := { s with port := rest }) inv h

end Sys2Proof.Machine
end

section
/-! A whole pass of the iterator over the ideal bus (spec/20_memory.md R58, spec/41_iterator.md R118), and FULL_SCAN's
refusal of a 256th qualifying device. -/

namespace Sys2Proof.Machine

/-! ### The devices still to come -/

/-- The devices after `a` in tree order. -/
def laterThan (a : Address) (population : List Address) : List Address := population.filter fun b => treeLt a b

@[simp] theorem mem_laterThan {a b : Address} {population : List Address} :
    b ∈ laterThan a population ↔ b ∈ population ∧ treeLt a b := by
  simp [laterThan]

/-- A list whose members are `a` and the devices after it, up to order. -/
theorem perm_cons_laterThan {a : Address} {devices population : List Address} (nodup : devices.Nodup)
    (nodup' : population.Nodup) (mem : ∀ b, b ∈ devices ↔ b = a ∨ b ∈ population ∧ treeLt a b) :
    devices.Perm (a :: laterThan a population) := by
  have distinct : (a :: laterThan a population).Nodup :=
    List.nodup_cons.2 ⟨by simp [treeLt_irrefl], nodup'.filter _⟩
  exact (List.perm_ext_iff_of_nodup nodup distinct).2 fun b => by rw [mem, List.mem_cons, mem_laterThan]

/-- The devices still to come shrink by exactly the one the step lands at. -/
theorem Standing.laterThan_perm {population : List Address} {s t : State} (h : Standing population s)
    (ne : s.ld ≠ 0) (land : Landing population s.ld s.srch t) (nodup : population.Nodup) :
    (laterThan s.srch population).Perm (t.srch :: laterThan t.srch population) := by
  obtain ⟨lt, first⟩ := h.next ne land
  refine perm_cons_laterThan (nodup.filter _) nodup fun b => ?_
  rw [mem_laterThan]
  constructor
  · rintro ⟨mem, later⟩
    exact or_iff_not_imp_left.2 fun ne => ⟨mem, first b mem later ne⟩
  · rintro (rfl | ⟨mem, later⟩)
    · exact ⟨land.member, lt⟩
    · exact ⟨mem, treeLt_trans lt later⟩

/-- From a rewound iterator the step lands at the first device: all others are still to come. -/
theorem Landing.population_perm {population : List Address} {srch : Address} {t : State}
    (land : Landing population 0 srch t) (nodup : population.Nodup) :
    population.Perm (t.srch :: laterThan t.srch population) := by
  refine perm_cons_laterThan nodup nodup fun b => ?_
  constructor
  · exact fun mem => or_iff_not_imp_left.2 fun ne => ⟨mem, land.first b mem ne⟩
  · rintro (rfl | ⟨mem, -⟩)
    · exact land.member
    · exact mem

theorem Standing.ld_ne_zero {population : List Address} {s : State} (h : Standing population s)
    (last : s.lastDevice = false) : s.ld ≠ 0 := by
  rw [h.lastDevice] at last
  simpa using last

/-! ### A row of yields -/

theorem iterYields_cons {s t u : State} {yields : List Address} (found : iterStep s = .found t)
    (rest : iterYields yields.length t = some (yields, u)) :
    iterYields (t.addr :: yields).length s = some (t.addr :: yields, u) := by
  simp [iterYields, found, rest]

theorem iterYields_cons_inv {s u : State} {a : Address} {yields : List Address}
    (h : iterYields (a :: yields).length s = some (a :: yields, u)) :
    ∃ t, iterStep s = .found t ∧ t.addr = a ∧ iterYields yields.length t = some (yields, u) := by
  rw [List.length_cons, iterYields] at h
  split at h
  · rename_i t found
    obtain ⟨⟨as, v⟩, rest, e⟩ := Option.map_eq_some_iff.1 h
    cases e
    exact ⟨t, found, rfl, rest⟩
  · cases h
  · cases h

/-- From a device it stands at, the iterator yields exactly the later ones, in tree order, and is then exhausted. -/
theorem Standing.yields {population : List Address} {s : State} (h : Standing population s)
    (nodup : population.Nodup) :
    ∃ yields u, iterYields yields.length s = some (yields, u) ∧ (laterThan s.srch population).Perm yields ∧
      yields.Pairwise treeLt ∧ Standing population u ∧ u.lastDevice = true := by
  generalize hn : (laterThan s.srch population).length = n
  induction n using Nat.strong_induction_on generalizing s with
  | h n ih =>
    cases last : s.lastDevice with
    | true =>
      have none : laterThan s.srch population = [] := by
        refine List.eq_nil_iff_forall_not_mem.2 fun b mem => ?_
        obtain ⟨mem, later⟩ := mem_laterThan.1 mem
        exact treeLt_asymm later (h.last last b mem fun e => treeLt_irrefl _ (e ▸ later))
      exact ⟨[], s, rfl, by rw [none], .nil, h, last⟩
    | false =>
      obtain ⟨t, found, land, -⟩ := iterStep_ideal_found h.line (List.ne_nil_of_mem h.member) last
      have perm := h.laterThan_perm (h.ld_ne_zero last) land nodup
      have fewer := perm.length_eq
      rw [List.length_cons, hn] at fewer
      obtain ⟨yields, u, row, later, sorted, stands, exhausted⟩ := ih _ (by omega) land.standing rfl
      refine ⟨t.addr :: yields, u, iterYields_cons found row, ?_, ?_, stands, exhausted⟩
      · rw [land.addr]
        exact perm.trans (later.cons _)
      · rw [land.addr, List.pairwise_cons]
        exact ⟨fun b mem => (mem_laterThan.1 (later.mem_iff.2 mem)).2, sorted⟩

/-- From a rewound iterator on a bus with devices, the iterator yields all of them, in tree order, and is then
exhausted (R118). -/
theorem iterYields_of_rewound {population : List Address} {s : State} (bus : s.OnIdealBus population)
    (nodup : population.Nodup) (devices : population ≠ []) (rewound : s.Rewound) :
    ∃ yields u, iterYields yields.length s = some (yields, u) ∧ population.Perm yields ∧
      yields.Pairwise treeLt ∧ Standing population u ∧ u.lastDevice = true := by
  obtain ⟨-, ld, last⟩ := rewound
  obtain ⟨t, found, land, -⟩ := iterStep_ideal_found bus devices last
  rw [ld] at land
  obtain ⟨yields, u, row, later, sorted, stands, exhausted⟩ := land.standing.yields nodup
  refine ⟨t.addr :: yields, u, iterYields_cons found row, ?_, ?_, stands, exhausted⟩
  · rw [land.addr]
    exact (land.population_perm nodup).trans (later.cons _)
  · rw [land.addr, List.pairwise_cons]
    exact ⟨fun b mem => (mem_laterThan.1 (later.mem_iff.2 mem)).2, sorted⟩

/-! ### The refusal -/

/-- What FULL_SCAN does with a yield: its count cannot take one more device, or goes up by one exactly when the
address qualifies (R131, R25). -/
theorem fullScanYield_cases (n : Byte) (s : State) :
    fullScanYield n s = .refuse .countOverflow ∨ ∃ n' : Byte, fullScanYield n s = .again n' ∧
      n'.toNat = n.toNat + if qualifies s.params s.addr then 1 else 0 := by
  cases qualified : qualifies s.params s.addr with
  | false => exact .inr ⟨n, by simp [fullScanYield, qualified], rfl⟩
  | true =>
    by_cases full : n = Config.countMax
    · exact .inl (by simp [fullScanYield, qualified, full])
    · have room : n.toNat ≠ 255 := fun e => full (BitVec.eq_of_toNat_eq e)
      exact .inr ⟨n + 1, by simp [fullScanYield, qualified, full], by rw [if_pos rfl]; bv_omega⟩

/-- FULL_SCAN is refused on a row of yields whose qualifying addresses take its count past 255. -/
theorem fullScan_refuses {yields : List Address} {m : Nat} {n : Byte} {s u : State}
    (row : iterYields yields.length s = some (yields, u)) (room : yields.length ≤ m + 1)
    (many : 256 ≤ n.toNat + yields.countP (qualifies s.params)) :
    iterLoop .fullScan fullScanYield fullScanEnd m n .entry s = .refused .countOverflow := by
  induction yields generalizing m n s with
  | nil =>
    have := n.isLt
    rw [List.countP_nil] at many
    omega
  | cons a yields ih =>
    obtain ⟨t, found, rfl, rest⟩ := iterYields_cons_inv row
    have params : t.params = s.params := (iterFrom_frame_of_eq (point := .entry) found).1.params
    rw [← params, List.countP_cons] at many
    rw [List.length_cons] at room
    rcases fullScanYield_cases n t with refuse | ⟨n', again, count⟩
    · cases m <;> simp [iterLoop, iterFrom, found, refuse]
    · have many' : 256 ≤ n'.toNat + yields.countP (qualifies t.params) := by omega
      cases m with
      | zero =>
        obtain rfl : yields = [] := List.length_eq_zero_iff.1 (by omega)
        have := n'.isLt
        rw [List.countP_nil] at many'
        omega
      | succ m =>
        rw [iterLoop_again (point := .entry) found again]
        exact ih rest (by omega) many'

/-- Settles O42: a scan's row of yields is the population in tree order, and its length fits the burst. -/
theorem fullScanRefusesA256thDevice : Obligations.FullScanRefusesA256thDevice := by
  unfold Obligations.FullScanRefusesA256thDevice
  intro s population idle bus nodup many
  have devices : population ≠ [] := by
    rintro rfl
    simp at many
  rw [exec_fullScan, State.accept_idle idle]
  obtain ⟨yields, u, row, perm, -⟩ := iterYields_of_rewound (s := (s.record _).iterRestart) bus nodup devices
    ⟨rfl, rfl, rfl⟩
  refine fullScan_refuses row ?_ ?_
  · obtain ⟨line, e, rfl⟩ := bus
    rw [← perm.length_eq, State.iterRestart_line, State.record_line, e, Line.burst]
    omega
  · rw [← perm.countP_eq]
    exact many.trans (Nat.le_add_left _ _)

end Sys2Proof.Machine
end

section
/-! A command that waits for the transport and goes on when more answers and completions come (spec/20_memory.md R52,
spec/10_state.md R29): every stage of ITER_STEP, then the loop around it, taken up again where it waited. -/

namespace Sys2Proof.Machine

/-! ### More answers, and another control point -/

/-- The line once the transport has given more answers and completed more writes. -/
def Line.hearMore (late : List Bool) (n : Nat) : Line → Line
  | .script answers writes => .script (answers ++ late) (writes + n)
  | .ideal bus => .ideal bus

def State.hearMore (late : List Bool) (n : Nat) (s : State) : State := { s with line := s.line.hearMore late n }

def State.withControl (c : Control) (s : State) : State := { s with control := c }

theorem State.hearMore_of_script {s : State} {answers late : List Bool} {writes n : Nat}
    (h : s.line = .script answers writes) :
    s.hearMore late n = { s with line := .script (answers ++ late) (writes + n) } := by
  rw [State.hearMore, h, Line.hearMore]

theorem Line.reset_hearMore {l l' : Line} {p : Bool} {late : List Bool} {n : Nat} (h : l.reset = some (p, l')) :
    (l.hearMore late n).reset = some (p, l'.hearMore late n) :=
  match l, h with
  | .script (_ :: _) _, rfl => rfl
  | .ideal _, rfl => rfl

theorem Line.readBit_hearMore {l l' : Line} {b : Bool} {late : List Bool} {n : Nat}
    (h : l.readBit = some (b, l')) : (l.hearMore late n).readBit = some (b, l'.hearMore late n) :=
  match l, h with
  | .script (_ :: _) _, rfl => rfl
  | .ideal _, rfl => rfl

theorem Line.writeByte_hearMore {l l' : Line} {c v : Byte} {late : List Bool} {n : Nat}
    (h : l.writeByte c v = some l') : (l.hearMore late n).writeByte c v = some (l'.hearMore late n) :=
  match l, h with
  | .script _ (_ + 1), rfl => by rw [Line.hearMore, Nat.add_right_comm]; rfl
  | .ideal _, rfl => rfl

theorem Line.writeBit_hearMore {l l' : Line} {d : Bool} {late : List Bool} {n : Nat}
    (h : l.writeBit d = some l') : (l.hearMore late n).writeBit d = some (l'.hearMore late n) :=
  match l, h with
  | .script _ (_ + 1), rfl => by rw [Line.hearMore, Nat.add_right_comm]; rfl
  | .ideal _, rfl => rfl

theorem State.tReset_of_line {s : State} {p : Bool} {l : Line} (h : s.line.reset = some (p, l)) :
    s.tReset = some (p, { s with line := l, history := .tReset p :: s.history }) := by
  simp [State.tReset, h]

theorem State.tReadBit_of_line {s : State} {b : Bool} {l : Line} (h : s.line.readBit = some (b, l)) :
    s.tReadBit = some (b, { s with line := l, history := .tReadBit b :: s.history }) := by
  simp [State.tReadBit, h]

theorem State.tWriteByte_of_line {s : State} {v : Byte} {l : Line}
    (h : s.line.writeByte s.params.searchCmd v = some l) :
    s.tWriteByte v = some { s with line := l, history := .tWriteByte v :: s.history } := by
  simp [State.tWriteByte, h]

theorem State.tWriteBit_of_line {s : State} {d : Bool} {l : Line} (h : s.line.writeBit d = some l) :
    s.tWriteBit d = some { s with line := l, history := .tWriteBit d :: s.history } := by
  simp [State.tWriteBit, h]

theorem State.tReset_eq_none {s : State} : s.tReset = none ↔ s.line.reset = none := by
  unfold State.tReset
  split <;> simp [*]

theorem State.tReadBit_eq_none {s : State} : s.tReadBit = none ↔ s.line.readBit = none := by
  unfold State.tReadBit
  split <;> simp [*]

theorem State.tWriteByte_eq_none {s : State} {v : Byte} :
    s.tWriteByte v = none ↔ s.line.writeByte s.params.searchCmd v = none := by
  unfold State.tWriteByte
  split <;> simp [*]

theorem State.tWriteBit_eq_none {s : State} {d : Bool} : s.tWriteBit d = none ↔ s.line.writeBit d = none := by
  unfold State.tWriteBit
  split <;> simp [*]

/-- A change of the state that a search does not notice: a primitive that completes still does, with the same value,
and the change commutes with everything a search writes. -/
structure Unnoticed (φ : State → State) : Prop where
  tReset : ∀ {s t : State} {p : Bool}, s.tReset = some (p, t) → (φ s).tReset = some (p, φ t)
  tReadBit : ∀ {s t : State} {b : Bool}, s.tReadBit = some (b, t) → (φ s).tReadBit = some (b, φ t)
  tWriteByte : ∀ {s t : State} {v : Byte}, s.tWriteByte v = some t → (φ s).tWriteByte v = some (φ t)
  tWriteBit : ∀ {s t : State} {d : Bool}, s.tWriteBit d = some t → (φ s).tWriteBit d = some (φ t)
  params : ∀ s : State, (φ s).params = s.params
  srch : ∀ s : State, (φ s).srch = s.srch
  ld : ∀ s : State, (φ s).ld = s.ld
  lastDevice : ∀ s : State, (φ s).lastDevice = s.lastDevice
  follow : ∀ (k : Nat) (d : Bool) (s : State), (φ s).follow k d = φ (s.follow k d)
  iterRestart : ∀ s : State, (φ s).iterRestart = φ s.iterRestart
  yieldAddress : ∀ (z : Fin 65) (s : State), (φ s).yieldAddress z = φ (s.yieldAddress z)

theorem hearMore_unnoticed (late : List Bool) (n : Nat) : Unnoticed (State.hearMore late n) where
  tReset h := by
    obtain ⟨line, e, rfl⟩ := State.tReset_spec h
    exact State.tReset_of_line (Line.reset_hearMore e)
  tReadBit h := by
    obtain ⟨line, e, rfl⟩ := State.tReadBit_spec h
    exact State.tReadBit_of_line (Line.readBit_hearMore e)
  tWriteByte h := by
    obtain ⟨line, e, rfl⟩ := State.tWriteByte_spec h
    exact State.tWriteByte_of_line (Line.writeByte_hearMore e)
  tWriteBit h := by
    obtain ⟨line, e, rfl⟩ := State.tWriteBit_spec h
    exact State.tWriteBit_of_line (Line.writeBit_hearMore e)
  params _ := rfl
  srch _ := rfl
  ld _ := rfl
  lastDevice _ := rfl
  follow _ _ _ := rfl
  iterRestart _ := rfl
  yieldAddress _ _ := rfl

theorem withControl_unnoticed (c : Control) : Unnoticed (State.withControl c) where
  tReset h := by
    obtain ⟨line, e, rfl⟩ := State.tReset_spec h
    exact State.tReset_of_line e
  tReadBit h := by
    obtain ⟨line, e, rfl⟩ := State.tReadBit_spec h
    exact State.tReadBit_of_line e
  tWriteByte h := by
    obtain ⟨line, e, rfl⟩ := State.tWriteByte_spec h
    exact State.tWriteByte_of_line e
  tWriteBit h := by
    obtain ⟨line, e, rfl⟩ := State.tWriteBit_spec h
    exact State.tWriteBit_of_line e
  params _ := rfl
  srch _ := rfl
  ld _ := rfl
  lastDevice _ := rfl
  follow _ _ _ := rfl
  iterRestart _ := rfl
  yieldAddress _ _ := rfl

/-! ### ITER_STEP taken up where it waited -/

/-- The line does not complete the primitive that the control point waits for (R52). -/
def Await.Stalls (s : State) : Await → Prop
  | .entry => False
  | .presence => s.line.reset = none
  | .command => s.line.writeByte s.params.searchCmd s.params.searchCmd = none
  | .value k _ => k ≤ 64 ∧ s.line.readBit = none
  | .complement _ _ _ => s.line.readBit = none
  | .direction _ _ d => s.line.writeBit d = none

/-- At a point where the line stalls, ITER_STEP waits where it is. -/
theorem Await.Stalls.waits {point : Await} {s : State} (h : point.Stalls s) : iterFrom point s = .waits point s := by
  cases point with
  | entry => exact h.elim
  | presence => rw [iterFrom, searchBus, State.tReset_eq_none.2 h]
  | command => rw [iterFrom, searchCommand, State.tWriteByte_eq_none.2 h]
  | value k z =>
    obtain ⟨n, e⟩ : ∃ n, 65 - k = n + 1 := ⟨64 - k, by have := h.1; omega⟩
    rw [iterFrom, e, searchFrom, State.tReadBit_eq_none.2 h.2]
  | complement k z b => rw [iterFrom, searchComplement, State.tReadBit_eq_none.2 h]
  | direction k z d => rw [iterFrom, searchDirection, State.tWriteBit_eq_none.2 h]

/-- A list of answers stalls only where a read finds no answer or a write no completion. -/
theorem Await.Stalls.script {point : Await} {s : State} {answers : List Bool} {writes : Nat} (h : point.Stalls s)
    (line : s.line = .script answers writes) : answers = [] ∨ writes = 0 := by
  match point, answers, writes with
  | _, [], _ => exact .inl rfl
  | _, _, 0 => exact .inr rfl
  | .entry, _ :: _, _ + 1 => exact h.elim
  | .presence, _ :: _, _ + 1 => simp [Await.Stalls, line, Line.reset] at h
  | .command, _ :: _, _ + 1 => simp [Await.Stalls, line, Line.writeByte] at h
  | .value _ _, _ :: _, _ + 1 => simp [Await.Stalls, line, Line.readBit] at h
  | .complement _ _ _, _ :: _, _ + 1 => simp [Await.Stalls, line, Line.readBit] at h
  | .direction _ _ _, _ :: _, _ + 1 => simp [Await.Stalls, line, Line.writeBit] at h

/-- `r'` is what the same search gives after an unnoticed change `φ`: the same ending, or, where the search waits
because the line stalls, whatever it gives when it goes on from there after the change. -/
def IterResult.GoesOn (φ : State → State) (r r' : IterResult) : Prop :=
  match r with
  | .found t => r' = .found (φ t)
  | .notFound t => r' = .notFound (φ t)
  | .waits point t => point.Stalls t ∧ r' = iterFrom point (φ t)

/-- The loop of R114 after the first read of its position. -/
theorem searchFrom_of_tReadBit {n k : Nat} {z : Fin 65} {b : Bool} {s s1 : State} (hn : n = 64 - k)
    (h : s.tReadBit = some (b, s1)) : searchFrom (n + 1) k z s = searchComplement k z b s1 := by
  subst hn
  rw [searchFrom, searchComplement, h]
  rfl

section GoesOn

variable {φ : State → State} (unnoticed : Unnoticed φ)
include unnoticed

theorem searchDirection_goesOn {k : Nat} (z : Fin 65) (d : Bool) (s : State)
    (rest : ∀ z s, (searchFrom (64 - k) (k + 1) z s).GoesOn φ (searchFrom (64 - k) (k + 1) z (φ s))) :
    (searchDirection k z d s).GoesOn φ (searchDirection k z d (φ s)) := by
  cases e : s.tWriteBit d with
  | none =>
    simp only [searchDirection, e]
    exact ⟨State.tWriteBit_eq_none.1 e, rfl⟩
  | some s1 =>
    simp only [searchDirection, e, unnoticed.tWriteBit e]
    exact rest z s1

theorem searchComplement_goesOn {k : Nat} (z : Fin 65) (b : Bool) (s : State)
    (rest : ∀ z s, (searchFrom (64 - k) (k + 1) z s).GoesOn φ (searchFrom (64 - k) (k + 1) z (φ s))) :
    (searchComplement k z b s).GoesOn φ (searchComplement k z b (φ s)) := by
  cases e : s.tReadBit with
  | none =>
    simp only [searchComplement, e]
    exact ⟨State.tReadBit_eq_none.1 e, rfl⟩
  | some r =>
    obtain ⟨c, s1⟩ := r
    simp only [searchComplement, e, unnoticed.tReadBit e]
    cases both : b && c with
    | true =>
      rw [State.branch_none both, State.branch_none both]
      exact congrArg IterResult.notFound (unnoticed.iterRestart s1)
    | false =>
      rw [State.branch_some both, State.branch_some both, unnoticed.ld, unnoticed.srch, unnoticed.follow]
      exact searchDirection_goesOn unnoticed _ _ _ rest

theorem searchFrom_goesOn {n k : Nat} (hn : n = 65 - k) (z : Fin 65) (s : State) :
    (searchFrom n k z s).GoesOn φ (searchFrom n k z (φ s)) := by
  induction n generalizing k z s with
  | zero => exact congrArg IterResult.found (unnoticed.yieldAddress z s)
  | succ n ih =>
    have hk : n = 64 - k := by omega
    cases e : s.tReadBit with
    | none =>
      have waits : searchFrom (n + 1) k z s = .waits (.value k z) s := by rw [searchFrom, e]
      rw [waits, hn]
      exact ⟨⟨by omega, State.tReadBit_eq_none.1 e⟩, rfl⟩
    | some r =>
      rw [searchFrom_of_tReadBit hk e, searchFrom_of_tReadBit hk (unnoticed.tReadBit e)]
      exact searchComplement_goesOn unnoticed z _ _ (hk ▸ fun z s => ih (by omega) z s)

theorem searchCommand_goesOn (s : State) : (searchCommand s).GoesOn φ (searchCommand (φ s)) := by
  cases e : s.tWriteByte s.params.searchCmd with
  | none =>
    simp only [searchCommand, e]
    exact ⟨State.tWriteByte_eq_none.1 e, rfl⟩
  | some s1 =>
    simp only [searchCommand, unnoticed.params, e, unnoticed.tWriteByte e]
    exact searchFrom_goesOn unnoticed (k := 1) rfl 0 s1

theorem searchBus_goesOn (s : State) : (searchBus s).GoesOn φ (searchBus (φ s)) := by
  cases e : s.tReset with
  | none =>
    simp only [searchBus, e]
    exact ⟨State.tReset_eq_none.1 e, rfl⟩
  | some r =>
    obtain ⟨presence, s1⟩ := r
    simp only [searchBus, e, unnoticed.tReset e]
    cases presence with
    | false => exact congrArg IterResult.notFound (unnoticed.iterRestart s1)
    | true => exact searchCommand_goesOn unnoticed s1

/-- From every point, ITER_STEP after an unnoticed change is ITER_STEP without it, gone on with where it waited. -/
theorem iterFrom_goesOn (point : Await) (s : State) : (iterFrom point s).GoesOn φ (iterFrom point (φ s)) := by
  have after (k : Nat) (z : Fin 65) (s : State) :
      (searchFrom (64 - k) (k + 1) z s).GoesOn φ (searchFrom (64 - k) (k + 1) z (φ s)) :=
    searchFrom_goesOn unnoticed (by omega) z s
  cases point with
  | entry =>
    simp only [iterFrom, iterStep, unnoticed.lastDevice]
    cases s.lastDevice with
    | true => exact congrArg IterResult.notFound (unnoticed.iterRestart s)
    | false => exact searchBus_goesOn unnoticed s
  | presence => exact searchBus_goesOn unnoticed s
  | command => exact searchCommand_goesOn unnoticed s
  | value k z => exact searchFrom_goesOn unnoticed rfl z s
  | complement k z b => exact searchComplement_goesOn unnoticed z b s (after k)
  | direction k z d => exact searchDirection_goesOn unnoticed z d s (after k)

end GoesOn

/-- The same ending with another control field in the state. -/
def IterResult.withControl (c : Control) : IterResult → IterResult
  | .found t => .found (t.withControl c)
  | .notFound t => .notFound (t.withControl c)
  | .waits point t => .waits point (t.withControl c)

/-- ITER_STEP does not read the control field. -/
theorem iterFrom_withControl (c : Control) (point : Await) (s : State) :
    iterFrom point (s.withControl c) = (iterFrom point s).withControl c := by
  have h := iterFrom_goesOn (withControl_unnoticed c) point s
  cases e : iterFrom point s with
  | found t => rwa [e] at h
  | notFound t => rwa [e] at h
  | waits point' t =>
    rw [e] at h
    obtain ⟨stalls, goesOn⟩ := h
    have stalls' : point'.Stalls (t.withControl c) := by cases point' <;> exact stalls
    exact goesOn.trans stalls'.waits

/-! ### The answers a step takes -/

theorem State.After.script {s t : State} {answers : List Bool} {writes : Nat} (h : s.After t)
    (line : s.line = .script answers writes) :
    ∃ left k, t.line = .script left k ∧ left.length ≤ answers.length := by
  obtain ⟨new, grows, -⟩ := h.grows
  obtain ⟨left, k, e, taken, -⟩ := h.answers answers writes line
  refine ⟨left, k, e, ?_⟩
  rw [grows] at taken
  have := congrArg List.length taken
  simp [answersIn] at this
  omega

/-- A step that yields has taken at least the answer of its T_RESET. -/
theorem iterStep_found_line {s t : State} {answers : List Bool} {writes : Nat}
    (line : s.line = .script answers writes) (h : iterStep s = .found t) :
    ∃ left k, t.line = .script left k ∧ left.length < answers.length := by
  unfold iterStep at h
  split at h
  · cases h
  · cases answers with
    | nil => simp [searchBus, State.tReset_script_nil line] at h
    | cons p rest =>
      rw [searchBus, State.tReset_script_cons line] at h
      cases p with
      | false => cases h
      | true =>
        have after := searchCommand_after { s with line := .script rest writes, history := .tReset true :: s.history }
        rw [show searchCommand _ = .found t from h] at after
        obtain ⟨left, k, e, le⟩ := after.script rfl
        exact ⟨left, k, e, Nat.lt_succ_of_le le⟩

/-! ### The loop taken up where it waited -/

/-- The body of a loop around ITER_STEP that goes on in the same way whatever the transport has still to answer,
does not read the control field, and responds on both ways out. -/
structure LoopBody {α : Type} (onYield : α → State → LoopNext α) (onEnd : α → State → State) : Prop where
  again_hearMore : ∀ {x x' : α} {s : State} (late : List Bool) (n : Nat),
    onYield x s = .again x' → onYield x (s.hearMore late n) = .again x'
  yield_withControl : ∀ (c : Control) (x : α) (s : State), onYield x (s.withControl c) = onYield x s
  end_withControl : ∀ (c : Control) (x : α) (s : State), onEnd x (s.withControl c) = onEnd x s
  done_idle : ∀ {x : α} {s t : State}, onYield x s = .done t → t.Idle
  end_idle : ∀ (x : α) (s : State), (onEnd x s).Idle
  done_resetRequest : ∀ {x : α} {s t : State}, onYield x s = .done t → t.resetRequest = s.resetRequest
  end_resetRequest : ∀ (x : α) (s : State), (onEnd x s).resetRequest = s.resetRequest

theorem fullScan_loopBody : LoopBody fullScanYield fullScanEnd where
  again_hearMore _ _ h := h
  yield_withControl _ _ _ := rfl
  end_withControl _ _ _ := rfl
  done_idle h := absurd h fullScanYield_ne_done
  end_idle _ _ := rfl
  done_resetRequest h := absurd h fullScanYield_ne_done
  end_resetRequest _ _ := rfl

theorem stepNext_loopBody : LoopBody stepNextYield stepNextEnd where
  again_hearMore {x x' s} late n h := by
    unfold stepNextYield at h
    split at h
    · cases h
    · exact if_neg ‹_›
  yield_withControl _ _ _ := rfl
  end_withControl _ _ _ := rfl
  done_idle h := by rw [(stepNextYield_done h).2]; rfl
  end_idle _ _ := rfl
  done_resetRequest h := by rw [(stepNextYield_done h).2]; rfl
  end_resetRequest _ _ := rfl

theorem confirm_loopBody : LoopBody confirmYield confirmEnd where
  again_hearMore {a a' s} late n h := by
    unfold confirmYield at h
    split at h
    · cases h
    · cases h
      exact if_neg ‹_›
  yield_withControl _ _ _ := rfl
  end_withControl _ _ _ := rfl
  done_idle h := by rw [confirmYield_done h]; rfl
  end_idle _ _ := rfl
  done_resetRequest h := by rw [confirmYield_done h]; rfl
  end_resetRequest _ _ := rfl

section Loop

variable {α : Type} {task : α → BusTask} {onYield : α → State → LoopNext α} {onEnd : α → State → State}

theorem iterLoop_congr {n : Nat} {x : α} {point point' : Await} {s s' : State}
    (h : iterFrom point s = iterFrom point' s') :
    iterLoop task onYield onEnd n x point s = iterLoop task onYield onEnd n x point' s' := by
  cases n <;> rw [iterLoop, iterLoop, h]

/-- Two fuels give the same outcome if neither ends, and the outcomes are the same, where the loop goes round. -/
theorem iterLoop_fuel_congr {n n' : Nat} {x : α} {point : Await} {s : State}
    (h : ∀ x' t, iterFrom point s = .found t → onYield x t = .again x' → ∃ m m', n = m + 1 ∧ n' = m' + 1 ∧
      iterLoop task onYield onEnd m x' .entry t = iterLoop task onYield onEnd m' x' .entry t) :
    iterLoop task onYield onEnd n x point s = iterLoop task onYield onEnd n' x point s := by
  cases found : iterFrom point s with
  | waits point' t => cases n <;> cases n' <;> simp only [iterLoop, found]
  | notFound t => cases n <;> cases n' <;> simp only [iterLoop, found]
  | found t =>
    cases yielded : onYield x t with
    | done u => cases n <;> cases n' <;> simp only [iterLoop, found, yielded]
    | refuse r => cases n <;> cases n' <;> simp only [iterLoop, found, yielded]
    | again x' =>
      obtain ⟨m, m', rfl, rfl, e⟩ := h x' t found yielded
      rw [iterLoop_again found yielded, iterLoop_again found yielded, e]

/-- At the entry of a step, as much fuel as answers is as good as any more: every yield takes an answer. -/
theorem iterLoop_entry_fuel {n n' : Nat} {x : α} {s : State} {answers : List Bool} {writes : Nat}
    (line : s.line = .script answers writes) (fuel : answers.length ≤ n) (fuel' : answers.length ≤ n') :
    iterLoop task onYield onEnd n x .entry s = iterLoop task onYield onEnd n' x .entry s := by
  induction n generalizing n' x s answers writes with
  | zero =>
    refine iterLoop_fuel_congr fun x' t found _ => ?_
    obtain ⟨left, k, -, fewer⟩ := iterStep_found_line line found
    omega
  | succ n ih =>
    refine iterLoop_fuel_congr fun x' t found _ => ?_
    obtain ⟨left, k, lineT, fewer⟩ := iterStep_found_line line found
    exact ⟨n, n' - 1, rfl, by omega, ih lineT (by omega) (by omega)⟩

/-- From a point inside a step, whose rest may take no answer, one more is enough, as `Line.burst` gives. -/
theorem iterLoop_fuel {n n' : Nat} {x : α} {point : Await} {s : State} {answers : List Bool} {writes : Nat}
    (line : s.line = .script answers writes) (fuel : answers.length < n) (fuel' : answers.length < n') :
    iterLoop task onYield onEnd n x point s = iterLoop task onYield onEnd n' x point s := by
  refine iterLoop_fuel_congr fun x' t found _ => ?_
  have after : s.After (IterResult.found t).state := found ▸ iterFrom_after point s
  obtain ⟨left, k, lineT, le⟩ := after.script line
  exact ⟨n - 1, n' - 1, by omega, by omega, iterLoop_entry_fuel lineT (by omega) (by omega)⟩

variable (body : LoopBody onYield onEnd)
include body

/-- The loop does not read the control field. -/
theorem iterLoop_withControl (c : Control) (n : Nat) (x : α) (point : Await) (s : State) :
    iterLoop task onYield onEnd n x point (s.withControl c) = iterLoop task onYield onEnd n x point s := by
  induction n generalizing x point s with
  | zero =>
    rw [iterLoop, iterLoop, iterFrom_withControl]
    cases iterFrom point s with
    | waits point' t => rfl
    | notFound t => simp only [IterResult.withControl, body.end_withControl]
    | found t =>
      simp only [IterResult.withControl, body.yield_withControl]
      cases onYield x t <;> rfl
  | succ n ih =>
    rw [iterLoop, iterLoop, iterFrom_withControl]
    cases iterFrom point s with
    | waits point' t => rfl
    | notFound t => simp only [IterResult.withControl, body.end_withControl]
    | found t =>
      simp only [IterResult.withControl, body.yield_withControl]
      cases onYield x t with
      | done u => rfl
      | refuse r => rfl
      | again x' => exact ih x' .entry t

/-- Where a loop that has to wait stands, and that with more answers it would have gone on from there. -/
theorem iterLoop_goesOn {n n' : Nat} {x : α} {s u : State} {answers : List Bool} {writes : Nat} {late : List Bool}
    {more : Nat} (line : s.line = .script answers writes) (fuel : answers.length < n)
    (fuel' : answers.length + late.length < n')
    (h : iterLoop task onYield onEnd n x .entry s = .next u) (busy : u.busy = true) :
    ∃ (x' : α) (point : Await) (t : State) (left : List Bool) (k m : Nat),
      u = t.suspend (task x') point ∧ t.line = .script left k ∧ (left = [] ∨ k = 0) ∧
      left.length + late.length < m ∧
      iterLoop task onYield onEnd n' x .entry (s.hearMore late more) =
        iterLoop task onYield onEnd m x' point (t.hearMore late more) := by
  have notIdle : u.control ≠ .idle := by simp [← State.busy_eq_false, busy]
  induction n generalizing n' x s answers writes with
  | zero => omega
  | succ n ih =>
    have goesOn := iterFrom_goesOn (hearMore_unnoticed late more) .entry s
    have after := iterFrom_after .entry s
    rw [iterLoop] at h
    cases found : iterFrom .entry s with
    | waits point t =>
      rw [found] at goesOn after h
      obtain ⟨left, k, lineT, le⟩ := after.script line
      cases h
      exact ⟨x, point, t, left, k, n', rfl, lineT, goesOn.1.script lineT, by omega, iterLoop_congr goesOn.2⟩
    | notFound t =>
      rw [found] at h
      cases h
      exact absurd (body.end_idle x t) notIdle
    | found t =>
      rw [found] at goesOn h
      obtain ⟨left, k, lineT, fewer⟩ := iterStep_found_line line found
      cases yielded : onYield x t with
      | done v =>
        simp only [yielded] at h
        cases h
        exact absurd (body.done_idle yielded) notIdle
      | refuse r =>
        simp only [yielded] at h
        cases h
      | again x' =>
        simp only [yielded] at h
        obtain ⟨n', rfl⟩ : ∃ m, n' = m + 1 := ⟨n' - 1, by omega⟩
        rw [iterLoop_again goesOn (body.again_hearMore late more yielded)]
        exact ih (n' := n') lineT (by omega) (by omega) h

/-- A step of the machine takes a waiting loop up again, and ends as the loop would have with all answers at once. -/
theorem step_goesOn {x : α} {s u : State} {answers : List Bool} {writes : Nat} (late : List Bool) (more : Nat)
    (h : iterLoop task onYield onEnd s.line.burst x .entry s = .next u) (busy : u.busy = true)
    (resumes : ∀ x point s, resume (task x) point s = iterLoop task onYield onEnd s.line.burst x point s)
    (line : s.line = .script answers writes) (noReset : s.resetRequest = false) :
    ∃ left k, u.line = .script left k ∧ (left = [] ∨ k = 0) ∧
      step { u with line := .script (left ++ late) (k + more) } =
        iterLoop task onYield onEnd (s.hearMore late more).line.burst x .entry (s.hearMore late more) := by
  have noReset' : u.resetRequest = false := noReset ▸ iterLoop_keeps State.resetRequest h
    (fun same => same.resetRequest) (fun _ _ _ => rfl) body.done_resetRequest body.end_resetRequest
  have burst : (s.hearMore late more).line.burst = answers.length + late.length + 1 := by
    rw [State.hearMore_of_script line, Line.burst, List.length_append]
  rw [line] at h
  obtain ⟨x', point, t, left, k, m, rfl, lineT, stalled, room, e⟩ :=
    iterLoop_goesOn body line (Nat.lt_succ_self _) (late := late) (more := more) (Nat.lt_succ_self _) h busy
  refine ⟨left, k, lineT, stalled, ?_⟩
  have heard := State.hearMore_of_script (late := late) (n := more) lineT
  calc step { t.suspend (task x') point with line := .script (left ++ late) (k + more) }
    _ = resume (task x') point ((t.hearMore late more).withControl (.running (task x') point)) := by
        rw [heard]
        exact step_of_running noReset' rfl
    _ = iterLoop task onYield onEnd (t.hearMore late more).line.burst x' point (t.hearMore late more) := by
        rw [resumes, iterLoop_withControl body]
        rfl
    _ = iterLoop task onYield onEnd m x' point (t.hearMore late more) := by
        refine iterLoop_fuel (by rw [heard]) ?_ (by rwa [List.length_append])
        rw [heard, Line.burst]
        exact Nat.lt_succ_self _
    _ = _ := by rw [← e, burst]

end Loop

/-- Settles O13: only the three commands that drive the iterator wait, and each goes on as its loop does. -/
theorem resumedCommandEqualsUninterrupted : Obligations.ResumedCommandEqualsUninterrupted := by
  unfold Obligations.ResumedCommandEqualsUninterrupted
  intro i s u early late m n noReset h busy
  rcases exec_next_cases h with (rfl | rfl | ⟨a, rfl⟩) | ⟨at_once, -⟩
  · rw [exec_fullScan] at h ⊢
    obtain ⟨idle, loop⟩ := State.accept_next h
    rw [State.accept_idle (s := { s with line := .script (early ++ late) (m + n) }) idle]
    exact step_goesOn fullScan_loopBody late n loop busy (fun _ _ _ => rfl) rfl noReset
  · rw [exec_stepNext] at h ⊢
    obtain ⟨idle, loop⟩ := State.accept_next h
    rw [State.accept_idle (s := { s with line := .script (early ++ late) (m + n) }) idle]
    exact step_goesOn stepNext_loopBody late n loop busy (fun _ _ _ => rfl) rfl noReset
  · rw [exec_confirmPresent] at h ⊢
    obtain ⟨idle, loop⟩ := State.accept_next h
    rw [State.accept_idle (s := { s with line := .script (early ++ late) (m + n) }) idle]
    exact step_goesOn confirm_loopBody late n loop busy (fun _ _ _ => rfl) rfl noReset
  · exact absurd at_once.idle (by simp [← State.busy_eq_false, busy])

end Sys2Proof.Machine
end

section
/-! What every command and every step adds to the history and takes from the line (spec/20_memory.md R53, R63). -/

namespace Sys2Proof.Machine

/-! ### Events that carry no answer and complete no write -/

@[simp] theorem answersIn_accepted (opcode : Byte) (operand : List Byte) (h : List Event) :
    answersIn (.accepted opcode operand :: h) = answersIn h := by
  simp [answersIn, List.filterMap_cons, Event.answer?]

@[simp] theorem answersIn_response (status : Status) (payload : List Byte) (h : List Event) :
    answersIn (.response status payload :: h) = answersIn h := by
  simp [answersIn, List.filterMap_cons, Event.answer?]

@[simp] theorem writesIn_accepted (opcode : Byte) (operand : List Byte) (h : List Event) :
    writesIn (.accepted opcode operand :: h) = writesIn h := by
  simp [writesIn, Event.isWrite]

@[simp] theorem writesIn_response (status : Status) (payload : List Byte) (h : List Event) :
    writesIn (.response status payload :: h) = writesIn h := by
  simp [writesIn, Event.isWrite]

/-! ### From the end of a search to a step of the machine -/

/-- An update that leaves history and line alone, before the rest. -/
theorem State.After.from_same {s t u : State} (h : t.After u) (history : t.history = s.history)
    (line : t.line = s.line) : s.After u := (State.After.of_same history line).trans h

theorem State.respond_after (status : Status) (payload : List Byte) (s : State) :
    s.After (s.respond status payload) :=
  ⟨⟨[.response status payload], rfl, rfl⟩, fun as m line => ⟨as, m, line, by simp, by simp⟩⟩

theorem State.report_after (code : ResultCode) (s : State) : s.After (s.report code) :=
  (State.respond_after .ack [resultByte code] { s with result := code }).from_same rfl rfl

theorem iterFrom_after_of_eq {point : Await} {s : State} {r : IterResult} (h : iterFrom point s = r) :
    s.After r.state := h ▸ iterFrom_after point s

/-- The loop around ITER_STEP takes the answers in order, if its two ways out do. -/
theorem iterLoop_after {α : Type} {task : α → BusTask} {onYield : α → State → LoopNext α}
    {onEnd : α → State → State} {n : Nat} {x : α} {point : Await} {s t : State}
    (h : iterLoop task onYield onEnd n x point s = .next t)
    (done : ∀ {x s t}, onYield x s = .done t → s.After t)
    (ends : ∀ (x : α) (s : State), s.After (onEnd x s)) : s.After t := by
  refine iterLoop_rule (fun _ _ u => s.After u) (fun r => ∀ t, r = .next t → s.After t)
    ?waits ?ends ?done ?refuse ?again ?rests n x point s (State.After.refl s) t h
  case waits =>
    intro x point u point' v so_far out t e
    cases e
    exact (so_far.trans (iterFrom_after_of_eq out)).trans (State.After.of_same rfl rfl)
  case ends =>
    intro x point u v so_far out t e
    cases e
    exact (so_far.trans (iterFrom_after_of_eq out)).trans (ends x v)
  case done =>
    intro x point u v w so_far out yielded t e
    cases e
    exact (so_far.trans (iterFrom_after_of_eq out)).trans (done yielded)
  case refuse => exact fun _ _ _ _ _ _ _ _ _ e => nomatch e
  case again => exact fun _ _ _ _ _ so_far out _ => so_far.trans (iterFrom_after_of_eq out)
  case rests =>
    intro x u so_far t e
    cases e
    exact so_far.trans (State.After.of_same rfl rfl)

theorem fullScanEnd_after (n : Byte) (s : State) : s.After (fullScanEnd n s) := by
  unfold fullScanEnd
  exact (State.report_after ..).from_same rfl rfl

theorem stepNextEnd_after (x : Unit) (s : State) : s.After (stepNextEnd x s) := by
  unfold stepNextEnd
  exact (State.report_after ..).from_same rfl rfl

theorem fullScanLoop_after {n : Byte} {point : Await} {s t : State} (h : fullScanLoop n point s = .next t) :
    s.After t :=
  iterLoop_after h (fun out => absurd out fullScanYield_ne_done) fullScanEnd_after

theorem stepNextLoop_after {point : Await} {s t : State} (h : stepNextLoop point s = .next t) : s.After t := by
  refine iterLoop_after h (fun {x s t} out => ?_) stepNextEnd_after
  rw [(stepNextYield_done out).2]
  exact (State.report_after ..).from_same rfl rfl

theorem confirmLoop_after {a : Address} {point : Await} {s t : State} (h : confirmLoop a point s = .next t) :
    s.After t := by
  refine iterLoop_after h (fun {x s t} out => ?_)
    (fun _ s => (State.report_after _ s.iterRestart).from_same rfl rfl)
  rw [confirmYield_done out]
  exact (State.report_after ..).from_same rfl rfl

theorem resume_after {task : BusTask} {point : Await} {s t : State} (h : resume task point s = .next t) :
    s.After t := by
  cases task with
  | fullScan n => exact fullScanLoop_after h
  | stepNext => exact stepNextLoop_after h
  | confirmPresent a => exact confirmLoop_after h

theorem State.answer_after {i : Instr} {payload : State → List Byte} {s t : State}
    (h : s.answer i payload = .next t) : (s.record (.accepted i.opcode i.operand)).After t := by
  cases (State.accept_next h).2
  exact State.respond_after ..

theorem execLoadAddress_after {a : Address} {s t : State} (h : execLoadAddress a s = .next t) :
    (s.record (.accepted (Instr.loadAddress a).opcode (Instr.loadAddress a).operand)).After t := by
  have body := (State.accept_next h).2
  dsimp only at body
  split at body <;> cases body <;> exact (State.report_after ..).from_same rfl rfl

/-- After its acceptance, every command only adds primitives and its response to the history, and takes the
transport's answers in order. -/
theorem exec_after {i : Instr} {s t : State} (h : exec i s = .next t) :
    (s.record (.accepted i.opcode i.operand)).After t := by
  cases i with
  | fullScan =>
    rw [exec_fullScan] at h
    exact (fullScanLoop_after (State.accept_next h).2).from_same rfl rfl
  | stepNext =>
    rw [exec_stepNext] at h
    exact stepNextLoop_after (State.accept_next h).2
  | confirmPresent a =>
    rw [exec_confirmPresent] at h
    exact (confirmLoop_after (State.accept_next h).2).from_same rfl rfl
  | loadAddress a => exact execLoadAddress_after h
  | restart =>
    cases (State.accept_next (show execRestart s = .next t from h)).2
    exact (State.respond_after ..).from_same rfl rfl
  | getResult => exact State.answer_after (show execGetResult s = .next t from h)
  | getCount => exact State.answer_after (show execGetCount s = .next t from h)
  | getFamily => exact State.answer_after (show execGetFamily s = .next t from h)
  | getId => exact State.answer_after (show execGetId s = .next t from h)
  | getPin => exact State.answer_after (show execGetPin s = .next t from h)
  | getAddress => exact State.answer_after (show execGetAddress s = .next t from h)
  | getSerial => exact State.answer_after (show execGetSerial s = .next t from h)
  | getIsSuccess => exact State.answer_after (show execGetIsSuccess s = .next t from h)
  | getIsError => exact State.answer_after (show execGetIsError s = .next t from h)

/-- A step takes the transport's answers in order, from the state it found or from the acceptance of a command. -/
theorem step_after {s t : State} (h : step s = .next t) :
    s.After t ∨ ∃ opcode operand, (s.record (.accepted opcode operand)).After t := by
  rcases step_next_cases h with
    ⟨-, rfl⟩ | ⟨-, ⟨task, point, -, h⟩ | ⟨-, rfl | ⟨opcode, rest, -, rfl⟩ | ⟨i, rest, -, h⟩⟩⟩
  · exact .inl (State.After.of_same rfl rfl)
  · exact .inl (resume_after h)
  · exact .inl (State.After.refl _)
  · have answered := State.respond_after .illegal [] (State.record (.accepted opcode []) { s with port := rest })
    exact .inr ⟨opcode, [], answered.from_same rfl rfl⟩
  · exact .inr ⟨i.opcode, i.operand, (exec_after h).from_same rfl rfl⟩

/-- Settles O12: the acceptance of a command carries no answer, and all else a step does comes after it in order. -/
theorem transportAnswersAreTakenInOrder : Obligations.TransportAnswersAreTakenInOrder := by
  unfold Obligations.TransportAnswersAreTakenInOrder
  intro s t answers writes line h
  rcases step_after h with after | ⟨opcode, operand, after⟩
  · obtain ⟨new, grows, -⟩ := after.grows
    obtain ⟨answers', writes', line', taken, completed⟩ := after.answers answers writes line
    exact ⟨answers', writes', new, line', grows, taken, completed⟩
  · obtain ⟨new, grows, -⟩ := after.grows
    obtain ⟨answers', writes', line', taken, completed⟩ := after.answers answers writes line
    rw [State.record_history, answersIn_accepted] at taken
    rw [State.record_history, writesIn_accepted] at completed
    exact ⟨answers', writes', new ++ [.accepted opcode operand], line', by simp [grows], taken, completed⟩

end Sys2Proof.Machine
end

section
/-! A command that waits for the transport: the block stays as it is, and where FULL_SCAN, STEP_NEXT and
CONFIRM_PRESENT come to wait (spec/20_memory.md R52, spec/70_reset_and_hazards.md R207). -/

namespace Sys2Proof.Machine

/-! ### A wait inside the loop -/

theorem iterLoop_waits {α : Type} {task : α → BusTask} {onYield : α → State → LoopNext α}
    {onEnd : α → State → State} {n : Nat} {x : α} {point point' : Await} {s t : State}
    (waits : iterFrom point s = .waits point' t) :
    iterLoop task onYield onEnd n x point s = .next (t.suspend (task x) point') := by
  unfold iterLoop
  rw [waits]

/-- A command in progress whose ITER_STEP waits is left running at the point of the wait. -/
theorem resume_waits {task : BusTask} {point point' : Await} {s t : State}
    (waits : iterFrom point s = .waits point' t) :
    resume task point s = .next (t.suspend task point') := by
  cases task with
  | fullScan n => exact iterLoop_waits waits
  | stepNext => exact iterLoop_waits waits
  | confirmPresent a => exact iterLoop_waits waits

/-- While the line does not complete the primitive the control point waits for, a step changes nothing (R52). -/
theorem step_of_stalls {s : State} {task : BusTask} {point : Await} (running : s.control = .running task point)
    (noReset : s.resetRequest = false) (stalls : point.Stalls s) : step s = .next s := by
  rw [step_of_running noReset running, resume_waits stalls.waits, State.suspend, ← running]

/-- A list with no answer stalls every read, and one with no completion every write. -/
theorem Await.stalls_of_script {point : Await} {s : State} {answers : List Bool} {writes : Nat}
    (legal : point.legal = true) (active : point.inSearch = true) (line : s.line = .script answers writes)
    (pending : if point.isWrite then writes = 0 else answers = []) : point.Stalls s := by
  cases point with
  | entry => cases active
  | presence =>
    obtain rfl : answers = [] := pending
    simp [Await.Stalls, line, Line.reset]
  | command =>
    obtain rfl : writes = 0 := pending
    simp [Await.Stalls, line, Line.writeByte]
  | value k z =>
    obtain rfl : answers = [] := pending
    simp only [Await.legal, decide_eq_true_eq] at legal
    simp [Await.Stalls, line, Line.readBit, legal.2.1]
  | complement k z b =>
    obtain rfl : answers = [] := pending
    simp [Await.Stalls, line, Line.readBit]
  | direction k z d =>
    obtain rfl : writes = 0 := pending
    simp [Await.Stalls, line, Line.writeBit]

/-! ### Where a command comes to wait -/

theorem exec_fullScan_waits {s t : State} {point : Await} (idle : s.Idle)
    (waits : iterFrom .entry (s.record (.accepted Instr.fullScan.opcode Instr.fullScan.operand)).iterRestart
      = .waits point t) :
    exec .fullScan s = .next (t.suspend (.fullScan 0) point) := by
  rw [exec_fullScan, State.accept_idle idle]
  exact iterLoop_waits waits

/-- FULL_SCAN whose first ITER_STEP waits is left running there, with nothing counted. -/
theorem exec_fullScan_control {s t : State} {point : Await} (idle : s.Idle)
    (waits : iterFrom .entry (s.record (.accepted Instr.fullScan.opcode Instr.fullScan.operand)).iterRestart
      = .waits point t) :
    ∃ u, exec .fullScan s = .next u ∧ u.control = .running (.fullScan 0) point :=
  ⟨_, exec_fullScan_waits idle waits, rfl⟩

/-- Settles O55: a list of answers stalls at the pending primitive, and FULL_SCAN given ever more answers comes to wait
at each kind of point in turn. -/
theorem pendingPrimitiveBlocksTheCommand : Obligations.PendingPrimitiveBlocksTheCommand := by
  unfold Obligations.PendingPrimitiveBlocksTheCommand
  constructor
  · intro s task point answers writes running legal active noReset line pending
    exact step_of_stalls running noReset (Await.stalls_of_script legal active line pending)
  · intro s idle
    exact ⟨exec_fullScan_control idle rfl, exec_fullScan_control idle rfl, exec_fullScan_control idle rfl,
      exec_fullScan_control idle rfl, exec_fullScan_control idle rfl⟩

/-- With no answer, ITER_STEP on an iterator that is not exhausted waits for its T_RESET. -/
theorem iterStep_silent {s : State} {writes : Nat} (last : s.lastDevice = false) (line : s.line = .script [] writes) :
    iterFrom .entry s = .waits .presence s := by
  simp [iterFrom, iterStep, last, searchBus, State.tReset_script_nil line]

theorem State.record_same (e : Event) (s : State) : s.SameRegisters (s.record e) :=
  ⟨rfl, rfl, rfl, rfl, rfl, rfl, rfl, rfl⟩

/-- With no answer, the three commands that drive the iterator are left waiting for their first T_RESET. -/
theorem exec_silent {i : Instr} {s : State} {writes : Nat}
    (h : i = .fullScan ∨ (i = .stepNext ∧ s.lastDevice = false) ∨ ∃ a, i = .confirmPresent a) (idle : s.Idle)
    (line : s.line = .script [] writes) :
    ∃ (task : BusTask) (t : State), exec i s = .next (t.suspend task .presence) ∧ s.SameRegisters t ∧
      t.addr = s.addr ∧ t.line = s.line := by
  rcases h with rfl | ⟨rfl, last⟩ | ⟨a, rfl⟩
  · exact ⟨.fullScan 0, _, exec_fullScan_waits idle (iterStep_silent rfl line),
      (State.record_same _ s).trans (State.iterRestart_same _), rfl, rfl⟩
  · rw [exec_stepNext, State.accept_idle idle]
    exact ⟨.stepNext, _, iterLoop_waits (iterStep_silent last line), State.record_same _ s, rfl, rfl⟩
  · rw [exec_confirmPresent, State.accept_idle idle]
    exact ⟨.confirmPresent a, _, iterLoop_waits (iterStep_silent rfl line),
      (State.record_same _ s).trans (State.iterTarget_same _ _), rfl, rfl⟩

/-- Settles O14: the command is left waiting for T_RESET, which a line with no answer stalls. -/
theorem silentTransportKeepsTheBlockBusy : Obligations.SilentTransportKeepsTheBlockBusy := by
  unfold Obligations.SilentTransportKeepsTheBlockBusy
  intro i s writes command idle noReset line
  obtain ⟨task, t, left, same, addr, lineT⟩ := exec_silent command idle line
  have stalls : Await.presence.Stalls (t.suspend task .presence) :=
    Await.stalls_of_script rfl rfl (lineT.trans line) rfl
  exact ⟨_, left, rfl, same.result, addr, step_of_stalls rfl (same.resetRequest.trans noReset) stalls⟩

end Sys2Proof.Machine
end

section
/-! The primitives of one ITER_STEP (spec/41_iterator.md R114): which ones it issues and in what order, how many, and
that it ends; and the reads of the ideal bus (spec/20_memory.md R58). -/

namespace Sys2Proof.Machine

/-! ### What a run of positions shows in the history -/

@[simp] theorem primitives_append (new old : List Event) :
    primitives (new ++ old) = primitives new + primitives old := List.countP_append

@[simp] theorem primitives_reverse (h : List Event) : primitives h.reverse = primitives h := List.countP_reverse

@[simp] theorem primitives_cons (e : Event) (h : List Event) :
    primitives (e :: h) = primitives h + if e.isPrimitive then 1 else 0 := List.countP_cons

theorem primitives_positionEvents (a : Address) (k : Nat) (pairs : List (Bool × Bool)) :
    primitives (positionEvents a k pairs) = 3 * pairs.length := by
  induction pairs generalizing k with
  | nil => rfl
  | cons p pairs ih => simp [positionEvents, ih, Event.isPrimitive]; omega

theorem answersIn_reverse_append (new old : List Event) :
    answersIn (new.reverse ++ old) = answersIn old ++ new.filterMap Event.answer? := by
  simp [answersIn]

theorem answers_positionEvents (a : Address) (k : Nat) (pairs : List (Bool × Bool)) :
    (positionEvents a k pairs).filterMap Event.answer? = pairAnswers pairs := by
  induction pairs generalizing k with
  | nil => rfl
  | cons p pairs ih => simp [positionEvents, pairAnswers, List.filterMap_cons, Event.answer?, ih]

/-- A run of positions is told by its answers, whatever answers follow. -/
theorem pairs_eq_of_pairAnswers {pairs pairs' : List (Bool × Bool)} {rest rest' : List Bool}
    (length : pairs.length = pairs'.length) (h : pairAnswers pairs ++ rest = pairAnswers pairs' ++ rest') :
    pairs = pairs' := by
  induction pairs generalizing pairs' with
  | nil => exact (List.length_eq_zero_iff.1 length.symm).symm
  | cons p pairs ih =>
    cases pairs' with
    | nil => cases length
    | cons p' pairs' =>
      simp only [pairAnswers, List.cons_append, List.cons.injEq] at h
      obtain ⟨first, second, later⟩ := h
      rw [Prod.ext first second, ih (Nat.succ.inj length) later]

/-- From `s`, about to read position `k`, to the history `h`: the primitives of the positions `pairs` down `path`, which
agrees with SRCH at the positions already behind. -/
def State.Walked (path : Address) (k : Nat) (pairs : List (Bool × Bool)) (s : State) (h : List Event) : Prop :=
  h = (positionEvents path k pairs).reverse ++ s.history ∧ agreeBefore k path s.srch

theorem State.Walked.nil {k : Nat} {s : State} : s.Walked s.srch k [] s.history := ⟨rfl, fun _ _ _ => rfl⟩

/-- One position ahead of a run of them: two reads and the write of the direction, which is the path's bit there. -/
theorem State.Walked.cons {path : Address} {k : Nat} {b c d : Bool} {pairs : List (Bool × Bool)}
    {s s1 s2 s3 : State} {h : List Event} (hk : 1 ≤ k ∧ k ≤ 64) (first : s.tReadBit = some (b, s1))
    (second : s1.tReadBit = some (c, s2)) (write : (s2.follow k d).tWriteBit d = some s3)
    (walked : s3.Walked path (k + 1) pairs h) :
    s.Walked path k ((b, c) :: pairs) h := by
  obtain ⟨_, -, rfl⟩ := State.tReadBit_spec first
  obtain ⟨_, -, rfl⟩ := State.tReadBit_spec second
  obtain ⟨_, -, rfl⟩ := State.tWriteBit_spec write
  obtain ⟨rfl, agree⟩ := walked
  have bit : abit path k = d := by
    rw [agree k hk.1 (Nat.lt_succ_self k)]
    exact (abit_setAbit_of_range hk hk).trans (if_pos rfl)
  exact ⟨by simp [positionEvents, bit], (agreeBefore_setAbit hk).1 (agree.mono (Nat.le_succ k))⟩

/-- What the loop of R114, about to read position `k`, shows in the history when it ends: all positions to 64, or some
and then the two reads of 1 that abort it. -/
def IterResult.Shows (k : Nat) (s : State) : IterResult → Prop
  | .found t => ∃ pairs, pairs.length + k = 65 ∧ s.Walked t.srch k pairs t.history
  | .notFound t => ∃ path pairs h, pairs.length + k ≤ 64 ∧ s.Walked path k pairs h ∧
      t.history = .tReadBit true :: .tReadBit true :: h
  | .waits _ _ => True

/-- The search shows a position that did not abort it ahead of the rest. -/
theorem IterResult.Shows.cons {r : IterResult} {k : Nat} {b c d : Bool} {s s1 s2 s3 : State}
    (later : r.Shows (k + 1) s3) (hk : 1 ≤ k ∧ k ≤ 64) (first : s.tReadBit = some (b, s1))
    (second : s1.tReadBit = some (c, s2)) (write : (s2.follow k d).tWriteBit d = some s3) : r.Shows k s := by
  cases r with
  | found t =>
    obtain ⟨pairs, length, walked⟩ := later
    exact ⟨(b, c) :: pairs, by rw [List.length_cons]; omega, walked.cons hk first second write⟩
  | notFound t =>
    obtain ⟨path, pairs, h, length, walked, aborted⟩ := later
    exact ⟨path, (b, c) :: pairs, h, by rw [List.length_cons]; omega, walked.cons hk first second write, aborted⟩
  | waits point t => trivial

theorem searchFrom_shows {n k : Nat} (hn : n + k = 65) (hk : 1 ≤ k) (z : Fin 65) (s : State) :
    (searchFrom n k z s).Shows k s := by
  induction n generalizing k z s with
  | zero => exact ⟨[], by simpa using hn, State.Walked.nil⟩
  | succ n ih =>
    unfold searchFrom
    split
    · trivial
    · rename_i b s1 first
      split
      · trivial
      · rename_i c s2 second
        cases both : b && c with
        | true =>
          obtain ⟨rfl, rfl⟩ : b = true ∧ c = true := by simpa using both
          rw [State.branch_none both]
          obtain ⟨_, -, rfl⟩ := State.tReadBit_spec first
          obtain ⟨_, -, rfl⟩ := State.tReadBit_spec second
          exact ⟨s.srch, [], s.history, by rw [List.length_nil]; omega, State.Walked.nil, rfl⟩
        | false =>
          rw [State.branch_some both]
          dsimp only
          split
          · trivial
          · rename_i s3 write
            exact (ih (by omega) (by omega) _ s3).cons (by omega) first second write

/-! ### What an ITER_STEP shows in the history -/

/-- An ITER_STEP that does not begin exhausted is `searchBus`, from its T_RESET on. -/
theorem iterStep_of_lastDevice_false {s : State} (last : s.lastDevice = false) : iterStep s = searchBus s := by
  simp [iterStep, last]

/-- Everything an ITER_STEP can do: report the exhausted tree, wait, find no presence, or, its search command sent, go
through the loop of R114. -/
theorem iterStep_cases (s : State) :
    (s.lastDevice = true ∧ iterStep s = .notFound s.iterRestart) ∨ s.lastDevice = false ∧
      ((∃ point t, iterStep s = .waits point t) ∨
        (∃ t, iterStep s = .notFound t ∧ t.history = .tReset false :: s.history) ∨
        ∃ s', s'.history = .tWriteByte s.params.searchCmd :: .tReset true :: s.history ∧
          (iterStep s).Shows 1 s') := by
  cases last : s.lastDevice with
  | true => exact .inl ⟨rfl, by simp [iterStep, last]⟩
  | false =>
    refine .inr ⟨rfl, ?_⟩
    rw [iterStep_of_lastDevice_false last]
    unfold searchBus
    split
    · exact .inl ⟨_, _, rfl⟩
    · rename_i s1 reset
      obtain ⟨_, -, rfl⟩ := State.tReset_spec reset
      exact .inr (.inl ⟨_, rfl, rfl⟩)
    · rename_i s1 reset
      obtain ⟨_, -, rfl⟩ := State.tReset_spec reset
      unfold searchCommand
      split
      · exact .inl ⟨_, _, rfl⟩
      · rename_i s2 command
        obtain ⟨_, -, rfl⟩ := State.tWriteByte_spec command
        exact .inr (.inr ⟨_, rfl, searchFrom_shows rfl (le_refl 1) 0 _⟩)

/-- The primitives of a step that yields, on any line: the reset, the search command and 64 positions. -/
theorem iterStep_found_history {s t : State} (h : iterStep s = .found t) :
    ∃ pairs, pairs.length = 64 ∧
      t.history = (.tReset true :: .tWriteByte s.params.searchCmd :: positionEvents t.addr 1 pairs).reverse ++
        s.history := by
  have addr : t.addr = t.srch := (iterFrom_frame_of_eq (point := .entry) h).2.1
  have ways := iterStep_cases s
  rw [h] at ways
  rcases ways with ⟨-, e⟩ | ⟨-, ⟨_, _, e⟩ | ⟨_, e, -⟩ | ⟨s', opened, pairs, length, history, -⟩⟩
  · cases e
  · cases e
  · cases e
  · exact ⟨pairs, by omega, by simp [history, opened, addr]⟩

/-- The primitives of a step that reports "not found", on any line (R115). -/
theorem iterStep_notFound_history {s t : State} (h : iterStep s = .notFound t) :
    (s.lastDevice = true ∧ t.history = s.history) ∨ s.lastDevice = false ∧
      (t.history = .tReset false :: s.history ∨
        ∃ path pairs, pairs.length < 64 ∧
          t.history = .tReadBit true :: .tReadBit true :: ((positionEvents path 1 pairs).reverse ++
            .tWriteByte s.params.searchCmd :: .tReset true :: s.history)) := by
  have ways := iterStep_cases s
  rw [h] at ways
  rcases ways with ⟨last, e⟩ | ⟨last, ⟨_, _, e⟩ | ⟨_, e, history⟩ |
    ⟨s', opened, path, pairs, _, length, ⟨rfl, -⟩, aborted⟩⟩
  · cases e
    exact .inl ⟨last, rfl⟩
  · cases e
  · cases e
    exact .inr ⟨last, .inl history⟩
  · exact .inr ⟨last, .inr ⟨path, pairs, by omega, by rw [aborted, opened]⟩⟩

/-- Settles O29: a step that yields shows 64 positions in its history, and its answers, taken in order, are those of the
given pairs. -/
theorem iterStepIssuesPrimitivesInOrder : Obligations.IterStepIssuesPrimitivesInOrder := by
  unfold Obligations.IterStepIssuesPrimitivesInOrder
  intro s t pairs rest writes last length line h
  obtain ⟨shown, length', history⟩ := iterStep_found_history h
  obtain ⟨left, _, -, taken, -⟩ := (iterFrom_after_of_eq (point := .entry) h).answers _ _ line
  change answersIn t.history ++ left = _ at taken
  have answers : pairAnswers shown ++ left = pairAnswers pairs ++ rest := by
    rw [history, answersIn_reverse_append, List.append_assoc, List.append_cancel_left_eq] at taken
    simpa [List.filterMap_cons, Event.answer?, answers_positionEvents] using taken
  rwa [pairs_eq_of_pairAnswers (length'.trans length.symm) answers] at history

theorem iterStep_found_primitives {s t : State} (h : iterStep s = .found t) :
    primitives t.history = primitives s.history + 194 := by
  obtain ⟨pairs, length, history⟩ := iterStep_found_history h
  simp [history, primitives_positionEvents, length, Event.isPrimitive]
  omega

/-- Settles O31, by what a step shows in the history, three primitives to a position. -/
theorem iterStepPrimitiveCounts : Obligations.IterStepPrimitiveCounts := by
  unfold Obligations.IterStepPrimitiveCounts
  intro s
  refine ⟨fun t h => iterStep_found_primitives h, fun t h => ?_⟩
  rcases iterStep_notFound_history h with ⟨last, history⟩ | ⟨last, history | ⟨path, pairs, length, history⟩⟩
  · exact .inl ⟨last, by rw [history]⟩
  · exact .inr ⟨last, .inl ⟨by rw [history]; rfl, by simp [history, Event.isPrimitive]⟩⟩
  · refine .inr ⟨last, .inr ⟨pairs.length + 1, by omega, by omega, by rw [history]; rfl, ?_⟩⟩
    simp [history, primitives_positionEvents, Event.isPrimitive]
    omega

/-! ### An ITER_STEP ends -/

/-- The line completes this many more reads and writes at least; the ideal bus completes all (log entry 3). -/
def Line.Serves (reads writes : Nat) : Line → Prop
  | .script answers completions => reads ≤ answers.length ∧ writes ≤ completions
  | .ideal _ => True

theorem State.tReset_of_serves {s : State} {reads writes : Nat} (h : s.line.Serves (reads + 1) writes) :
    ∃ p t, s.tReset = some (p, t) ∧ t.line.Serves reads writes := by
  obtain ⟨p, l, answer, served⟩ : ∃ p l, s.line.reset = some (p, l) ∧ l.Serves reads writes :=
    match s.line, h with
    | .script (p :: rest) m, ⟨le, le'⟩ => ⟨p, .script rest m, rfl, Nat.le_of_succ_le_succ le, le'⟩
    | .ideal bus, _ => ⟨_, .ideal bus.reset.2, rfl, trivial⟩
  exact ⟨p, _, State.tReset_of_line answer, served⟩

theorem State.tReadBit_of_serves {s : State} {reads writes : Nat} (h : s.line.Serves (reads + 1) writes) :
    ∃ b t, s.tReadBit = some (b, t) ∧ t.line.Serves reads writes := by
  obtain ⟨b, l, answer, served⟩ : ∃ b l, s.line.readBit = some (b, l) ∧ l.Serves reads writes :=
    match s.line, h with
    | .script (b :: rest) m, ⟨le, le'⟩ => ⟨b, .script rest m, rfl, Nat.le_of_succ_le_succ le, le'⟩
    | .ideal bus, _ => ⟨_, .ideal bus.readBit.2, rfl, trivial⟩
  exact ⟨b, _, State.tReadBit_of_line answer, served⟩

theorem State.tWriteByte_of_serves {s : State} {v : Byte} {reads writes : Nat} (h : s.line.Serves reads (writes + 1)) :
    ∃ t, s.tWriteByte v = some t ∧ t.line.Serves reads writes := by
  obtain ⟨l, completed, served⟩ : ∃ l, s.line.writeByte s.params.searchCmd v = some l ∧ l.Serves reads writes :=
    match s.line, h with
    | .script answers (m + 1), ⟨le, le'⟩ => ⟨.script answers m, rfl, le, Nat.le_of_succ_le_succ le'⟩
    | .ideal bus, _ => ⟨.ideal (bus.writeByte _ v), rfl, trivial⟩
  exact ⟨_, State.tWriteByte_of_line completed, served⟩

theorem State.tWriteBit_of_serves {s : State} {d : Bool} {reads writes : Nat} (h : s.line.Serves reads (writes + 1)) :
    ∃ t, s.tWriteBit d = some t ∧ t.line.Serves reads writes := by
  obtain ⟨l, completed, served⟩ : ∃ l, s.line.writeBit d = some l ∧ l.Serves reads writes :=
    match s.line, h with
    | .script answers (m + 1), ⟨le, le'⟩ => ⟨.script answers m, rfl, le, Nat.le_of_succ_le_succ le'⟩
    | .ideal bus, _ => ⟨.ideal (bus.writeBit d), rfl, trivial⟩
  exact ⟨_, State.tWriteBit_of_line completed, served⟩

/-- The loop of R114 ends when each of its positions is served two reads and a write. -/
theorem searchFrom_ends {n k : Nat} {z : Fin 65} {s : State} (h : s.line.Serves (2 * n) n) :
    ∃ t, searchFrom n k z s = .found t ∨ searchFrom n k z s = .notFound t := by
  induction n generalizing k z s with
  | zero => exact ⟨_, .inl rfl⟩
  | succ n ih =>
    obtain ⟨b, s1, first, served⟩ := State.tReadBit_of_serves (reads := 2 * n + 1) h
    obtain ⟨c, s2, second, served⟩ := State.tReadBit_of_serves served
    simp only [searchFrom, first, second]
    cases both : b && c with
    | true => exact ⟨_, .inr (by rw [State.branch_none both])⟩
    | false =>
      rw [State.branch_some both]
      obtain ⟨s3, write, served⟩ :=
        State.tWriteBit_of_serves (s := s2.follow k (direction s2.ld s2.srch k b c)) served
      dsimp only
      rw [write]
      exact ih served

/-- An ITER_STEP ends when it is served one reset, 128 reads and 65 writes. -/
theorem iterStep_ends {s : State} (h : s.line.Serves 129 65) :
    ∃ t, iterStep s = .found t ∨ iterStep s = .notFound t := by
  cases last : s.lastDevice with
  | true => exact ⟨s.iterRestart, .inr (by simp [iterStep, last])⟩
  | false =>
    rw [iterStep_of_lastDevice_false last]
    obtain ⟨presence, s1, reset, served⟩ := State.tReset_of_serves h
    cases presence with
    | false => exact ⟨s1.iterRestart, .inr (by simp [searchBus, reset])⟩
    | true =>
      obtain ⟨s2, command, served⟩ := State.tWriteByte_of_serves (v := s1.params.searchCmd) served
      simp only [searchBus, reset, searchCommand, command]
      exact searchFrom_ends served

/-- Settles O32: an ITER_STEP that is served enough ends, and an abort comes before the last write. -/
theorem iterStepEndsWhateverIsAnswered : Obligations.IterStepEndsWhateverIsAnswered := by
  unfold Obligations.IterStepEndsWhateverIsAnswered
  intro s
  refine ⟨fun answers writes line reads completions => iterStep_ends ?_, fun bus line => iterStep_ends ?_, ?_⟩
  · rw [line]
    exact ⟨reads, completions⟩
  · rw [line]
    trivial
  · rintro t (found | notFound)
    · exact (iterStep_found_primitives found).le
    · have counts := (iterStepPrimitiveCounts s).2 t notFound
      rcases counts with ⟨-, count⟩ | ⟨-, ⟨-, count⟩ | ⟨k, -, le, -, count⟩⟩ <;> omega

/-! ### The reads of the ideal bus -/

theorem IdealBus.readBit_value {bus : IdealBus} (searching : bus.searching = true) (le : bus.position ≤ 64)
    (phase : bus.phase = .value) :
    bus.readBit = (bus.participants.all fun a => abit a bus.position, { bus with phase := .complement }) := by
  simp [IdealBus.readBit, searching, phase, Nat.not_lt.2 le]

theorem IdealBus.readBit_complement {bus : IdealBus} (searching : bus.searching = true) (le : bus.position ≤ 64)
    (phase : bus.phase = .complement) :
    bus.readBit = (bus.participants.all fun a => !abit a bus.position, { bus with phase := .direction }) := by
  simp [IdealBus.readBit, searching, phase, Nat.not_lt.2 le]

/-- Settles O34: the reads are conjunctions over the participants, and a participant has one bit only. -/
theorem idealBusReadsAreAWiredAnd : Obligations.IdealBusReadsAreAWiredAnd := by
  unfold Obligations.IdealBusReadsAreAWiredAnd
  intro bus d searching _ le phase
  have first := IdealBus.readBit_value searching le phase
  have second : bus.readBit.2.readBit =
      (bus.participants.all fun a => !abit a bus.position, { bus with phase := .direction }) := by
    rw [first]
    exact IdealBus.readBit_complement searching le rfl
  have ones : bus.readBit.1 = true ↔ ∀ a ∈ bus.participants, abit a bus.position = true := by simp [first]
  have zeros : bus.readBit.2.readBit.1 = true ↔ ∀ a ∈ bus.participants, abit a bus.position = false := by
    simp [second]
  refine ⟨ones, zeros, ?_, ?_, ?_⟩
  · rw [ones, zeros]
    constructor
    · rintro ⟨allOne, allZero⟩
      exact List.eq_nil_iff_forall_not_mem.2 fun a mem => nomatch (allOne a mem).symm.trans (allZero a mem)
    · intro nobody
      simp [nobody]
  · simp [second, IdealBus.writeBit, searching, le]
  · simp [second, IdealBus.writeBit, searching, le]

end Sys2Proof.Machine
end

section
/-! The decoder and the encoder of the command port (spec/30_encoding.md R84, R85, R88 to R90). -/

namespace Sys2Proof

/-! ### Operands -/

theorem takeAddress_eq_some {bytes rest : List Byte} {a : Address} :
    takeAddress bytes = some (a, rest) ↔ bytes = a.toBytes ++ rest := by
  constructor
  · intro h
    unfold takeAddress at h
    split at h <;> cases h
    rfl
  · rintro rfl
    rfl

theorem Address.exists_toBytes_eq :
    ∀ {operand : List Byte}, operand.length = 8 → ∃ a : Address, a.toBytes = operand
  | [a0, a1, a2, a3, a4, a5, a6, a7], _ => ⟨⟨a0, a1, a2, a3, a4, a5, a6, a7⟩, rfl⟩

theorem decodeOperand_eq_command {mk : Address → Instr} {bytes rest : List Byte} {i : Instr} :
    decodeOperand mk bytes = .command i rest ↔ ∃ a, i = mk a ∧ bytes = a.toBytes ++ rest := by
  constructor
  · intro h
    unfold decodeOperand at h
    split at h <;> cases h
    exact ⟨_, rfl, takeAddress_eq_some.1 ‹_›⟩
  · rintro ⟨a, rfl, rfl⟩
    rfl

/-- An operand cut short is no operand (R90). -/
theorem decodeOperand_of_short {mk : Address → Instr} {bytes : List Byte} (short : bytes.length < 8) :
    decodeOperand mk bytes = .incomplete := by
  unfold decodeOperand
  split
  · rename_i a rest taken
    rw [takeAddress_eq_some.1 taken, List.length_append] at short
    exact absurd short (Nat.not_lt.2 (Nat.le_add_right 8 _))
  · rfl

/-! ### The opcode map -/

/-- The reserved opcodes by their ranges (R89). -/
theorem definedOpcode_eq_false_iff {op : Byte} :
    definedOpcode op = false ↔
      op.toNat = 0x00 ∨ (0x06 ≤ op.toNat ∧ op.toNat ≤ 0x0F) ∨ 0x19 ≤ op.toNat := by
  simp [definedOpcode, formatAOpcodes, formatNOpcodes, ← BitVec.toNat_inj]
  omega

/-- Everything the opcode map can say of a byte: it begins a command of format A, it is a command of format N by itself,
or it is reserved (R84, R88, R89). -/
theorem decodeOpcode_cases (op : Byte) (rest : List Byte) :
    (∃ mk, decodeOpcode op rest = decodeOperand mk rest ∧ ∀ a, encode (mk a) = op :: a.toBytes) ∨
    (∃ i, decodeOpcode op rest = .command i rest ∧ encode i = [op]) ∨
    (decodeOpcode op rest = .reserved op rest ∧ definedOpcode op = false) := by
  have literal {n : Nat} (h : op.toNat = n) : op = BitVec.ofNat 8 n := by simp [← h]
  unfold decodeOpcode
  split
  case h_3 h =>
    obtain rfl := literal h
    exact .inl ⟨_, rfl, fun _ => rfl⟩
  case h_4 h =>
    obtain rfl := literal h
    exact .inl ⟨_, rfl, fun _ => rfl⟩
  case h_15 =>
    refine .inr (.inr ⟨rfl, definedOpcode_eq_false_iff.2 ?_⟩)
    simp only [imp_false] at *
    omega
  all_goals
    rename_i h
    obtain rfl := literal h
    exact .inr (.inl ⟨_, rfl, rfl⟩)

/-! ### Encode and decode -/

theorem decode_encode_append (i : Instr) (rest : List Byte) : decode (encode i ++ rest) = .command i rest := by
  cases i <;> rfl

theorem eq_encode_append_of_decode {bytes rest : List Byte} {i : Instr} (h : decode bytes = .command i rest) :
    bytes = encode i ++ rest := by
  cases bytes with
  | nil => cases h
  | cons op operand =>
    change decodeOpcode op operand = .command i rest at h
    rcases decodeOpcode_cases op operand with ⟨mk, e, encoded⟩ | ⟨j, e, encoded⟩ | ⟨e, -⟩ <;> rw [e] at h
    · obtain ⟨a, rfl, rfl⟩ := decodeOperand_eq_command.1 h
      rw [encoded a]
      rfl
    · cases h
      rw [encoded]
      rfl
    · cases h

/-- Settles O2: a command decodes from its encoding by its constructor, and the opcode map begins a command with no other
bytes. -/
theorem decodeIffEncoded : Obligations.DecodeIffEncoded := by
  unfold Obligations.DecodeIffEncoded
  intro bytes rest i
  constructor
  · exact eq_encode_append_of_decode
  · rintro rfl
    exact decode_encode_append i rest

theorem encodedForm : ∀ i : Instr, Laws.EncodedForm.Statement i
  | .fullScan => Laws.EncodedForm.fullScan
  | .stepNext => Laws.EncodedForm.stepNext
  | .confirmPresent a => Laws.EncodedForm.confirmPresent a
  | .loadAddress a => Laws.EncodedForm.loadAddress a
  | .restart => Laws.EncodedForm.restart
  | .getResult => Laws.EncodedForm.getResult
  | .getCount => Laws.EncodedForm.getCount
  | .getFamily => Laws.EncodedForm.getFamily
  | .getId => Laws.EncodedForm.getId
  | .getPin => Laws.EncodedForm.getPin
  | .getAddress => Laws.EncodedForm.getAddress
  | .getSerial => Laws.EncodedForm.getSerial
  | .getIsSuccess => Laws.EncodedForm.getIsSuccess
  | .getIsError => Laws.EncodedForm.getIsError

theorem wellFormedCommand_cons {op : Byte} {operand : List Byte} :
    wellFormedCommand (op :: operand) = true ↔
      definedOpcode op = true ∧ operand.length + 1 = commandLength op := by
  simp [wellFormedCommand]

/-- The first byte of an encoding is a defined opcode, and gives its length (R84). -/
theorem wellFormedCommand_of_encode {op : Byte} {operand : List Byte} {i : Instr} (h : encode i = op :: operand) :
    definedOpcode op = true ∧ operand.length + 1 = commandLength op :=
  wellFormedCommand_cons.1 (h ▸ (encodedForm i).1)

theorem exists_encode_of_wellFormed {bytes : List Byte} (h : wellFormedCommand bytes = true) :
    ∃ i, encode i = bytes := by
  cases bytes with
  | nil => cases h
  | cons op operand =>
    obtain ⟨defined, length⟩ := wellFormedCommand_cons.1 h
    rcases decodeOpcode_cases op operand with ⟨mk, -, encoded⟩ | ⟨i, -, encoded⟩ | ⟨-, reserved⟩
    · have nine := (wellFormedCommand_of_encode (encoded Address.zero)).2
      obtain ⟨a, rfl⟩ := Address.exists_toBytes_eq (Nat.succ.inj (length.trans nine.symm))
      exact ⟨mk a, encoded a⟩
    · have one := (wellFormedCommand_of_encode encoded).2
      obtain rfl := List.length_eq_zero_iff.1 (Nat.succ.inj (length.trans one.symm))
      exact ⟨i, encoded⟩
    · exact absurd (defined.symm.trans reserved) Bool.noConfusion

/-- Settles O3: well-formed bytes are some command's encoding, which decodes whole to it, and every command's encoding is
well formed. -/
theorem wellFormedBytesAreOneCommand : Obligations.WellFormedBytesAreOneCommand := by
  unfold Obligations.WellFormedBytesAreOneCommand
  intro bytes
  constructor
  · intro wellFormed
    obtain ⟨i, rfl⟩ := exists_encode_of_wellFormed wellFormed
    exact ⟨i, (encodedForm i).2⟩
  · rintro ⟨i, whole⟩
    rw [eq_encode_append_of_decode whole, List.append_nil]
    exact (encodedForm i).1

/-- Settles O1: each word of the table is its command's encoding. -/
theorem tableWordsDecode : Obligations.TableWordsDecode := by
  unfold Obligations.TableWordsDecode
  have word := decode_encode_append
  exact ⟨fun rest => ⟨word .fullScan rest, word .stepNext rest, word .restart rest, word .getResult rest,
      word .getCount rest, word .getFamily rest, word .getId rest, word .getPin rest, word .getAddress rest,
      word .getSerial rest, word .getIsSuccess rest, word .getIsError rest⟩,
    word (.confirmPresent ⟨0x01, 0x23, 0x45, 0x67, 0x89, 0xAB, 0xCD, 0xE9⟩) [],
    word (.loadAddress ⟨0x02, 0x1C, 0xB8, 0x01, 0x00, 0x00, 0x00, 0xA2⟩) []⟩

end Sys2Proof
end

section
/-! What an idle block does with the bytes at its port (spec/30_encoding.md R84, R89, R90, spec/60_exceptions.md R178). -/

namespace Sys2Proof.Machine

/-! ### A step that fetches -/

section Fetch

variable {s : State} (idle : s.Idle) (noReset : s.resetRequest = false)
include idle noReset

theorem step_of_incomplete (fetched : decode s.port = .incomplete) : step s = .next s := by
  simp [step, noReset, idle, State.fetch, fetched]

theorem step_of_reserved {op : Byte} {rest : List Byte} (fetched : decode s.port = .reserved op rest) :
    step s = .next (State.illegal op { s with port := rest }) := by
  simp [step, noReset, idle, State.fetch, fetched]

theorem step_of_command {i : Instr} {rest : List Byte} (fetched : decode s.port = .command i rest) :
    step s = exec i { s with port := rest } := by
  simp [step, noReset, idle, State.fetch, fetched]

end Fetch

/-- Settles O6: an idle block with no reset fetches what the port decodes to. -/
theorem stepRunsTheDecodedCommand : Obligations.StepRunsTheDecodedCommand := by
  unfold Obligations.StepRunsTheDecodedCommand
  exact fun _ _ _ idle noReset fetched => step_of_command idle noReset fetched

/-! ### Reserved opcodes -/

@[simp] theorem responses_cons (e : Event) (h : List Event) :
    responses (e :: h) = responses h + if e.isResponse then 1 else 0 := List.countP_cons

theorem decode_of_reserved {op : Byte} (reserved : definedOpcode op = false) (rest : List Byte) :
    decode (op :: rest) = .reserved op rest := by
  have undefined {i : Instr} {operand : List Byte} (encoded : encode i = op :: operand) : False :=
    absurd ((wellFormedCommand_of_encode encoded).1.symm.trans reserved) Bool.noConfusion
  rcases decodeOpcode_cases op rest with ⟨mk, -, encoded⟩ | ⟨i, -, encoded⟩ | ⟨e, -⟩
  · exact (undefined (encoded Address.zero)).elim
  · exact (undefined encoded).elim
  · exact e

/-- Settles O4: the step is `State.illegal`, which adds the acceptance of the opcode and its response to the history. -/
theorem reservedOpcodeIsAnsweredIllegal : Obligations.ReservedOpcodeIsAnsweredIllegal := by
  unfold Obligations.ReservedOpcodeIsAnsweredIllegal
  intro s op rest range idle noReset port
  have fetched : decode s.port = .reserved op rest :=
    port ▸ decode_of_reserved (definedOpcode_eq_false_iff.2 range) rest
  refine ⟨_, step_of_reserved idle noReset fetched, ?_, rfl, ?_, ?_⟩
  · simp [State.illegal, State.record, State.respond, show s.control = .idle from idle]
  · simp [State.illegal, Event.isResponse]
  · simp [State.illegal, Event.isPrimitive]

/-! ### The length of a command -/

/-- The commands of format A with their opcodes (R84). -/
theorem decode_formatA {op : Byte} (formatA : op = 0x03 ∨ op = 0x04) (operand : List Byte) :
    decode (op :: operand) = decodeOperand (if op = 0x03 then .confirmPresent else .loadAddress) operand := by
  rcases formatA with rfl | rfl <;> rfl

/-- Settles O5: a command of format A takes the 8 bytes of an address or waits for them, and any other byte is one command
or reserved, by the opcode map. -/
theorem decoderTellsTheLength : Obligations.DecoderTellsTheLength := by
  unfold Obligations.DecoderTellsTheLength
  refine ⟨fun op operand rest formatA length => ?_, fun op rest no3 no4 => ?_,
    fun s op operand formatA short idle noReset port => ?_⟩
  · obtain ⟨a, rfl⟩ := Address.exists_toBytes_eq length
    refine ⟨a, rfl, ?_⟩
    rw [decode_formatA formatA]
    exact decodeOperand_eq_command.2 ⟨a, by split <;> rfl, rfl⟩
  · rcases decodeOpcode_cases op rest with ⟨mk, -, encoded⟩ | ⟨i, e, -⟩ | ⟨e, -⟩
    · have nine := (wellFormedCommand_of_encode (encoded Address.zero)).2
      have one : commandLength op = 1 := if_neg (by simpa [formatAOpcodes] using ⟨no3, no4⟩)
      cases nine.trans one
    · exact .inr ⟨i, e⟩
    · exact .inl e
  · refine step_of_incomplete idle noReset ?_
    rw [port, decode_formatA formatA]
    exact decodeOperand_of_short short

end Sys2Proof.Machine
end

section
/-! The response of a command (spec/30_encoding.md R86, R88): none while it waits for the transport, one at its end. -/

namespace Sys2Proof.Machine

/-! ### A search does not respond -/

theorem State.tReset_responses {s t : State} {p : Bool} (h : s.tReset = some (p, t)) :
    responses t.history = responses s.history := by
  obtain ⟨_, -, rfl⟩ := State.tReset_spec h
  simp [Event.isResponse]

theorem State.tReadBit_responses {s t : State} {b : Bool} (h : s.tReadBit = some (b, t)) :
    responses t.history = responses s.history := by
  obtain ⟨_, -, rfl⟩ := State.tReadBit_spec h
  simp [Event.isResponse]

theorem State.tWriteByte_responses {s t : State} {v : Byte} (h : s.tWriteByte v = some t) :
    responses t.history = responses s.history := by
  obtain ⟨_, -, rfl⟩ := State.tWriteByte_spec h
  simp [Event.isResponse]

theorem State.tWriteBit_responses {s t : State} {d : Bool} (h : s.tWriteBit d = some t) :
    responses t.history = responses s.history := by
  obtain ⟨_, -, rfl⟩ := State.tWriteBit_spec h
  simp [Event.isResponse]

theorem searchFrom_responses (n k : Nat) (z : Fin 65) (s : State) :
    responses (searchFrom n k z s).state.history = responses s.history := by
  induction n generalizing k z s with
  | zero => rfl
  | succ n ih =>
    unfold searchFrom
    split
    · rfl
    · rename_i first
      split
      · exact State.tReadBit_responses first
      · rename_i second
        have reads := (State.tReadBit_responses second).trans (State.tReadBit_responses first)
        split
        · exact reads
        · rename_i chosen
          obtain ⟨-, -, rfl, -⟩ := State.branch_spec chosen
          split
          · exact reads
          · rename_i write
            exact ((ih ..).trans (State.tWriteBit_responses write)).trans reads

theorem searchCommand_responses (s : State) :
    responses (searchCommand s).state.history = responses s.history := by
  unfold searchCommand
  split
  · rfl
  · rename_i command
    exact (searchFrom_responses ..).trans (State.tWriteByte_responses command)

theorem iterStep_responses (s : State) : responses (iterStep s).state.history = responses s.history := by
  unfold iterStep
  split
  · rfl
  · unfold searchBus
    split
    · rfl
    · rename_i reset
      exact (State.tReset_responses reset :)
    · rename_i reset
      exact (searchCommand_responses _).trans (State.tReset_responses reset)

theorem iterStep_responses_of_eq {s : State} {r : IterResult} (h : iterStep s = r) :
    responses r.state.history = responses s.history := h ▸ iterStep_responses s

/-! ### A command responds once, at its end -/

/-- From `s` to `t` the command gave no response and still runs, or gave the one response that the table of R88 fixes. -/
def State.Answers (i : Instr) (s t : State) : Prop :=
  responses t.history = responses s.history + (if t.busy then 0 else 1) ∧
  (t.busy = false → ∃ payload : List Byte, payload.length = payloadLength i ∧
    t.history.head? = some (.response .ack payload))

theorem State.Answers.of_responses {i : Instr} {s t u : State} (h : t.Answers i u)
    (same : responses t.history = responses s.history) : s.Answers i u :=
  ⟨same ▸ h.1, h.2⟩

theorem State.suspend_answers (i : Instr) (task : BusTask) (point : Await) (s : State) :
    s.Answers i (s.suspend task point) :=
  ⟨rfl, nofun⟩

theorem State.respond_answers {i : Instr} {payload : List Byte} (length : payload.length = payloadLength i)
    (s : State) : s.Answers i (s.respond .ack payload) :=
  ⟨by simp [Event.isResponse], fun _ => ⟨payload, length, rfl⟩⟩

theorem State.report_answers {i : Instr} (one : payloadLength i = 1) (code : ResultCode) (s : State) :
    s.Answers i (s.report code) :=
  (State.respond_answers (payload := [resultByte code]) one.symm { s with result := code }).of_responses rfl

/-- The loop around ITER_STEP responds once, at its end, if its two ways out do. -/
theorem iterLoop_answers {α : Type} {i : Instr} {task : α → BusTask} {onYield : α → State → LoopNext α}
    {onEnd : α → State → State} {n : Nat} {x : α} {s t : State}
    (h : iterLoop task onYield onEnd n x .entry s = .next t)
    (done : ∀ {x s t}, onYield x s = .done t → s.Answers i t)
    (ends : ∀ (x : α) (s : State), s.Answers i (onEnd x s)) : s.Answers i t := by
  refine iterLoop_rule (fun _ point u => point = .entry ∧ responses u.history = responses s.history)
    (fun r => ∀ t, r = .next t → s.Answers i t)
    ?waits ?ends ?done ?refuse ?again ?rests n x .entry s ⟨rfl, rfl⟩ t h
  case waits =>
    rintro x _ u point' v ⟨rfl, so_far⟩ out t e
    cases e
    exact (State.suspend_answers ..).of_responses ((iterStep_responses_of_eq out).trans so_far)
  case ends =>
    rintro x _ u v ⟨rfl, so_far⟩ out t e
    cases e
    exact (ends x v).of_responses ((iterStep_responses_of_eq out).trans so_far)
  case done =>
    rintro x _ u v w ⟨rfl, so_far⟩ out yielded t e
    cases e
    exact (done yielded).of_responses ((iterStep_responses_of_eq out).trans so_far)
  case refuse => exact fun _ _ _ _ _ _ _ _ _ e => nomatch e
  case again =>
    rintro x _ u v x' ⟨rfl, so_far⟩ out -
    exact ⟨rfl, (iterStep_responses_of_eq out).trans so_far⟩
  case rests =>
    rintro x u ⟨-, so_far⟩ t e
    cases e
    exact (State.suspend_answers ..).of_responses so_far

theorem fullScanLoop_answers {n : Byte} {s t : State} (h : fullScanLoop n .entry s = .next t) :
    s.Answers .fullScan t :=
  iterLoop_answers h (fun out => absurd out fullScanYield_ne_done)
    fun _ _ => (State.report_answers rfl _ _).of_responses rfl

theorem stepNextLoop_answers {s t : State} (h : stepNextLoop .entry s = .next t) : s.Answers .stepNext t := by
  refine iterLoop_answers h (fun out => ?_) fun _ _ => (State.report_answers rfl _ _).of_responses rfl
  rw [(stepNextYield_done out).2]
  exact (State.report_answers rfl _ _).of_responses rfl

theorem confirmLoop_answers {a : Address} {s t : State} (h : confirmLoop a .entry s = .next t) :
    s.Answers (.confirmPresent a) t := by
  refine iterLoop_answers h (fun out => ?_) fun _ _ => (State.report_answers rfl _ _).of_responses rfl
  rw [confirmYield_done out]
  exact (State.report_answers rfl _ _).of_responses rfl

theorem State.answer_answers {i : Instr} {payload : State → List Byte} {s t : State}
    (h : s.answer i payload = .next t) (length : ∀ u, (payload u).length = payloadLength i) : s.Answers i t := by
  cases (State.accept_next h).2
  exact (State.respond_answers (length _) _).of_responses rfl

theorem execLoadAddress_answers {a : Address} {s t : State} (h : execLoadAddress a s = .next t) :
    s.Answers (.loadAddress a) t := by
  have body := (State.accept_next h).2
  dsimp only at body
  split at body <;> cases body <;> exact (State.report_answers rfl _ _).of_responses rfl

theorem exec_answers {i : Instr} {s t : State} (h : exec i s = .next t) : s.Answers i t := by
  cases i with
  | fullScan =>
    rw [exec_fullScan] at h
    exact (fullScanLoop_answers (State.accept_next h).2).of_responses rfl
  | stepNext =>
    rw [exec_stepNext] at h
    exact (stepNextLoop_answers (State.accept_next h).2).of_responses rfl
  | confirmPresent a =>
    rw [exec_confirmPresent] at h
    exact (confirmLoop_answers (State.accept_next h).2).of_responses rfl
  | loadAddress a => exact execLoadAddress_answers h
  | restart =>
    cases (State.accept_next (show execRestart s = .next t from h)).2
    exact (State.respond_answers (payload := []) rfl _).of_responses rfl
  | getResult => exact State.answer_answers (show execGetResult s = .next t from h) fun _ => rfl
  | getCount => exact State.answer_answers (show execGetCount s = .next t from h) fun _ => rfl
  | getFamily => exact State.answer_answers (show execGetFamily s = .next t from h) fun _ => rfl
  | getId => exact State.answer_answers (show execGetId s = .next t from h) fun _ => rfl
  | getPin => exact State.answer_answers (show execGetPin s = .next t from h) fun _ => rfl
  | getAddress => exact State.answer_answers (show execGetAddress s = .next t from h) fun _ => rfl
  | getSerial => exact State.answer_answers (show execGetSerial s = .next t from h) fun _ => rfl
  | getIsSuccess => exact State.answer_answers (show execGetIsSuccess s = .next t from h) fun _ => rfl
  | getIsError => exact State.answer_answers (show execGetIsError s = .next t from h) fun _ => rfl

/-- A command is accepted once, at its start. -/
theorem exec_acceptances {i : Instr} {s t : State} (h : exec i s = .next t) :
    acceptances t.history = acceptances s.history + 1 := by
  obtain ⟨new, grows, unaccepted⟩ := (exec_after h).grows
  have nothingElse : new.countP Event.isAccepted = 0 := unaccepted
  simp [acceptances, grows, nothingElse, List.countP_cons, Event.isAccepted]

/-- Settles O50: whatever command it is, it is accepted once, and responds once at its end. -/
theorem everyCommandEndsInOneResponse : Obligations.EveryCommandEndsInOneResponse := by
  unfold Obligations.EveryCommandEndsInOneResponse
  intro i s t h
  exact ⟨exec_acceptances h, exec_answers h⟩

end Sys2Proof.Machine
end

section
/-! PROOFS about the checksum engine (spec/40_checksum.md): O15 to O19. They rest on two laws of one byte of R100: it is
linear over XOR, and it is zero exactly where the byte equals the register. -/

namespace Sys2Proof.Machine

/-! ### One byte of the engine -/

theorem crcShifts_xor (n : Nat) (c d x y : Byte) :
    crcShifts n (c ^^^ d) (x ^^^ y) = crcShifts n c x ^^^ crcShifts n d y := by
  induction n generalizing c d x y with
  | zero => rfl
  | succ n ih => simp only [crcShifts, crcShift_xor, BitVec.ushiftRight_xor_distrib, ih]

theorem crcStep_xor (c d x y : Byte) : crcStep (c ^^^ d) (x ^^^ y) = crcStep c x ^^^ crcStep d y :=
  crcShifts_xor 8 c d x y

/-- A byte equal to the register gives no feedback, so both are shifted out together. -/
theorem crcShifts_self (n : Nat) (c : Byte) : crcShifts n c c = c >>> n := by
  induction n generalizing c with
  | zero => rfl
  | succ n ih =>
    have noFeedback : crcShift c c = c >>> 1 := by simp [crcShift]
    rw [crcShifts, noFeedback, ih, ← BitVec.shiftRight_add, Nat.add_comm]

@[simp] theorem crcStep_self (c : Byte) : crcStep c c = 0 :=
  (crcShifts_self 8 c).trans (BitVec.ushiftRight_eq_zero le_rfl)

/-- Bit 7 of the polynomial is set, so bit 7 of a shifted register tells whether there was feedback. -/
theorem crcShift_zero_eq_zero {c : Byte} (h : crcShift c 0 = 0) : c = 0 := by
  unfold crcShift at h
  split at h
  case isTrue =>
    have top := congrArg (BitVec.getLsbD · 7) h
    simp [Config.crcPolyReflected] at top
  case isFalse low =>
    apply BitVec.eq_of_getLsbD_eq
    intro j hj
    cases j with
    | zero => simpa using low
    | succ j => simpa [Nat.add_comm] using congrArg (BitVec.getLsbD · j) h

theorem crcShifts_zero_eq_zero {n : Nat} {c : Byte} (h : crcShifts n c 0 = 0) : c = 0 := by
  induction n generalizing c with
  | zero => exact h
  | succ n ih => exact crcShift_zero_eq_zero (ih h)

/-- The register and the byte enter a step through their XOR only. -/
theorem crcStep_eq_crcStep_xor_zero (c x : Byte) : crcStep c x = crcStep (c ^^^ x) 0 := by
  have := crcStep_xor (c ^^^ x) x 0 x
  simpa [BitVec.xor_assoc] using this

theorem crcStep_eq_zero_iff (c x : Byte) : crcStep c x = 0 ↔ c = x := by
  constructor
  · intro h
    rw [crcStep_eq_crcStep_xor_zero] at h
    exact BitVec.xor_eq_zero_iff.1 (crcShifts_zero_eq_zero h)
  · rintro rfl
    exact crcStep_self c

theorem crcStep_eq_iff (c d x y : Byte) : crcStep c x = crcStep d y ↔ c ^^^ d = x ^^^ y := by
  rw [← BitVec.xor_eq_zero_iff, ← crcStep_xor]
  exact crcStep_eq_zero_iff _ _

/-! ### Strings of bytes -/

/-- The engine is linear in the register it starts from and the string together. -/
theorem foldl_crcStep_xor (c d : Byte) (s t : List Byte) (h : s.length = t.length) :
    (List.zipWith (fun x y => x ^^^ y) s t).foldl crcStep (c ^^^ d)
      = s.foldl crcStep c ^^^ t.foldl crcStep d := by
  induction s generalizing c d t with
  | nil =>
    cases List.length_eq_zero_iff.1 h.symm
    rfl
  | cons x s ih =>
    cases t with
    | nil => cases h
    | cons y t =>
      simp only [List.zipWith_cons_cons, List.foldl_cons, crcStep_xor]
      exact ih _ _ t (Nat.succ.inj h)

/-- No string of bytes makes two different registers meet. -/
theorem foldl_crcStep_inj (s : List Byte) (c d : Byte) : s.foldl crcStep c = s.foldl crcStep d ↔ c = d := by
  induction s generalizing c d with
  | nil => rfl
  | cons x s ih => rw [List.foldl_cons, List.foldl_cons, ih, crcStep_eq_iff, BitVec.xor_self, BitVec.xor_eq_zero_iff]

/-- Replacing one byte of a string by another changes its checksum. -/
theorem crc8_set_eq_iff (s : List Byte) (i : Nat) (hi : i < s.length) (v : Byte) :
    crc8 (s.set i v) = crc8 s ↔ v = s[i] := by
  have cut : s = s.take i ++ s[i] :: s.drop (i + 1) := by simp
  rw [List.set_eq_take_append_cons_drop, if_pos hi]
  conv_lhs => rhs; rw [cut]
  simp only [crc8, List.foldl_append, List.foldl_cons, foldl_crcStep_inj, crcStep_eq_iff, BitVec.xor_self]
  rw [eq_comm, BitVec.xor_eq_zero_iff]

/-! ### Addresses -/

theorem crc8_toBytes (a : Address) : crc8 a.toBytes = crcStep (crc8 (checkedBytes a)) (crcByte a) :=
  crc8_append_byte (checkedBytes a) (crcByte a)

theorem valid_iff (a : Address) : valid a = true ↔ crc8 (checkedBytes a) = crcByte a := beq_iff_eq

theorem valid_iff_crc8_toBytes (a : Address) : valid a = true ↔ crc8 a.toBytes = 0 := by
  rw [valid_iff, crc8_toBytes, crcStep_eq_zero_iff]

theorem toBytes_setAddrByte (a : Address) (i : Nat) (hi : i < 8) (v : Byte) :
    (setAddrByte a i v).toBytes = a.toBytes.set i v := by
  interval_cases i <;> rfl

theorem getElem_toBytes (a : Address) (i : Nat) (hi : i < 8) : a.toBytes[i]'hi = addrByte a i := by
  interval_cases i <;> rfl

theorem setByteBit_not_ne (v : Byte) (j : Nat) (hj : j < 8) : setByteBit v j (!v.getLsbD j) ≠ v := by
  intro same
  have := congrArg (BitVec.getLsbD · j) same
  simp [getLsbD_setByteBit _ _ _ _ hj hj] at this

/-- One flipped bit changes one of the eight bytes, so it changes the checksum of all eight. -/
theorem crc8_toBytes_flip_ne (a : Address) (k : Nat) (pos : 1 ≤ k) (hk : k ≤ 64) :
    crc8 (setAbit a k (!abit a k)).toBytes ≠ crc8 a.toBytes := by
  have byte : (k - 1) / 8 < 8 := by omega
  rw [setAbit, toBytes_setAddrByte _ _ byte, Ne, crc8_set_eq_iff _ _ byte, getElem_toBytes _ _ byte]
  exact setByteBit_not_ne _ _ (by omega)

theorem crcByte_setAbit (a : Address) (k : Nat) (d : Bool) (pos : 1 ≤ k) (hk : k ≤ 56) :
    crcByte (setAbit a k d) = crcByte a := by
  have byte : (k - 1) / 8 < 8 := by omega
  have other : 7 ≠ (k - 1) / 8 := by omega
  exact (addrByte_setAddrByte a _ 7 _ byte (by decide)).trans (if_neg other)

/-- Were the checksum of bytes 0 to 6 the same, that of all eight would be, with byte 7 untouched. -/
theorem crc8_checkedBytes_flip_ne (a : Address) (k : Nat) (pos : 1 ≤ k) (hk : k ≤ 56) :
    crc8 (checkedBytes (setAbit a k (!abit a k))) ≠ crc8 (checkedBytes a) := by
  intro same
  apply crc8_toBytes_flip_ne a k pos (by omega)
  rw [crc8_toBytes, crc8_toBytes, same, crcByte_setAbit a k _ pos hk]

theorem valid_flip (a : Address) (k : Nat) (pos : 1 ≤ k) (hk : k ≤ 64) (h : valid a = true) :
    valid (setAbit a k (!abit a k)) = false := by
  rw [← Bool.not_eq_true, valid_iff_crc8_toBytes, ← (valid_iff_crc8_toBytes a).1 h]
  exact crc8_toBytes_flip_ne a k pos hk

theorem crc8_replicate_zero (n : Nat) : crc8 (List.replicate n 0) = 0 := by
  induction n with
  | zero => rfl
  | succ n ih => rw [List.replicate_succ', crc8_append_byte, ih, crcStep_self]

/-! ### The obligations -/

/-- Settles O15: the last byte of a string leaves the register zero exactly when it equals the checksum before it. -/
theorem checksumValidatesAddresses : Obligations.ChecksumValidatesAddresses := by
  unfold Obligations.ChecksumValidatesAddresses
  exact ⟨fun s => (crc8_append_byte s _).trans (crcStep_self _), valid_iff, valid_iff_crc8_toBytes,
    (valid_iff _).2 (crc8_replicate_zero 7)⟩

/-- Settles O16: linearity from two zero registers, whose XOR is the zero register. -/
theorem checksumIsLinear : Obligations.ChecksumIsLinear := by
  unfold Obligations.ChecksumIsLinear
  exact foldl_crcStep_xor Config.crcInit Config.crcInit

/-- Settles O17. Two valid addresses that share a checksum byte: the zero address, and one whose first byte is followed
by that byte's own checksum (R103). -/
theorem singleBitFlipIsDetected : Obligations.SingleBitFlipIsDetected := by
  unfold Obligations.SingleBitFlipIsDetected
  refine ⟨crc8_checkedBytes_flip_ne, valid_flip, by decide +kernel, ?collision⟩
  case collision =>
    exact ⟨Address.zero, ⟨0x01, 0x5E, 0, 0, 0, 0, 0, 0⟩, by decide, by decide +kernel, by decide +kernel, rfl⟩

/-- Settles O18: a zero byte leaves a zero register as it is, and the worked example is run. -/
theorem checksumCornerCases : Obligations.ChecksumCornerCases := by
  unfold Obligations.ChecksumCornerCases
  exact ⟨crc8_nil, crc8_replicate_zero, by decide +kernel⟩

/-- Settles O19, bit by bit. -/
theorem reflectedPolynomialIsTheReversal : Obligations.ReflectedPolynomialIsTheReversal := by
  unfold Obligations.ReflectedPolynomialIsTheReversal
  exact ⟨rfl, by decide⟩

end Sys2Proof.Machine
end

section
/-! What the iterator's operations write and leave alone (spec/41_iterator.md R110 to R115, R120), and ITER_STEP on a list
of answers. -/

namespace Sys2Proof.Machine

/-! ### The operations that only set the iterator up -/

/-- Settles O27: the two operations are these updates. -/
theorem iteratorSetupWrites : Obligations.IteratorSetupWrites := by
  unfold Obligations.IteratorSetupWrites
  exact ⟨fun _ => rfl, fun _ _ => rfl⟩

theorem exec_restart (s : State) :
    exec .restart s = s.accept .restart fun s => .next (s.iterRestart.respond .ack []) := rfl

/-- Settles O22: the command is accepted, the iterator rewound and the response given, and the block was idle already. -/
theorem restartRewindsTheIterator : Obligations.RestartRewindsTheIterator := by
  unfold Obligations.RestartRewindsTheIterator
  intro s idle
  rw [exec_restart, State.accept_idle idle]
  simp [State.respond, State.iterRestart, State.record, Instr.opcode, Instr.operand, show s.control = .idle from idle]

/-! ### The frame of ITER_STEP -/

/-- Settles O33, by the frame of a search. -/
theorem iterStepFrame : Obligations.IterStepFrame := by
  unfold Obligations.IterStepFrame
  intro point s
  refine ⟨fun t found => ?_, fun t notFound => ?_⟩
  · obtain ⟨same, addr, -⟩ := iterFrom_frame_of_eq found
    exact ⟨addr, same.count, same.result, same.matchSeen, same.params, same.pin, same.control, same.port⟩
  · obtain ⟨same, addr, rewound⟩ := iterFrom_frame_of_eq notFound
    exact ⟨addr, rewound, same.count, same.result, same.matchSeen, same.params, same.pin, same.control, same.port⟩

theorem iterStep_of_lastDevice_true {s : State} (last : s.lastDevice = true) :
    iterStep s = .notFound s.iterRestart := by
  simp [iterStep, last]

/-! ### One position on a list of answers -/

/-- Where the reads differ the bus decides, and at a discrepancy SRCH before LD, 1 at LD and 0 beyond (R114). -/
theorem direction_eq (ld : Fin 65) (srch : Address) (k : Nat) (b c : Bool) :
    direction ld srch k b c
      = if b ≠ c then b else if k < ld.val then abit srch k else decide (k = ld.val) := by
  have atLd : (k == ld.val) = decide (k = ld.val) := rfl
  simp [direction, atLd]

/-- `last_zero` moves to a position exactly where both reads are 0 and the direction is 0 (R114). -/
theorem nextLastZero_val {k : Nat} {b c d : Bool} {z : Fin 65} (hk : k ≤ 64) (both : (b && c) = false) :
    (nextLastZero k b c d z).val = if b = false ∧ c = false ∧ d = false then k else z.val := by
  have moves : (b == c && !d) = true ↔ b = false ∧ c = false ∧ d = false := by
    revert b c d
    decide
  simp only [nextLastZero, moves]
  split
  · exact Nat.mod_eq_of_lt (Nat.lt_succ_of_le hk)
  · rfl

/-- A position whose two reads are not both 1 goes on to the next one, with the direction in SRCH. -/
theorem searchFrom_script_pair {n k : Nat} {z : Fin 65} {b c d : Bool} {answers : List Bool} {writes : Nat} {s : State}
    (line : s.line = .script (b :: c :: answers) (writes + 1)) (both : (b && c) = false)
    (dir : direction s.ld s.srch k b c = d) :
    ∃ t, searchFrom (n + 1) k z s = searchFrom n (k + 1) (nextLastZero k b c d z) t ∧
      t.line = .script answers writes ∧ t.srch = setAbit s.srch k d ∧ t.ld = s.ld ∧
      t.lastDevice = s.lastDevice := by
  subst dir
  rw [searchFrom, State.tReadBit_script_cons line]
  dsimp only
  rw [State.tReadBit_script_cons rfl]
  dsimp only
  rw [State.branch_some both]
  dsimp only
  rw [State.tWriteBit_script_succ rfl]
  exact ⟨_, rfl, rfl, rfl, rfl, rfl⟩

/-- A position whose two reads are both 1 ends the step, with no write (R115 (c)). -/
theorem searchFrom_script_abort {n k : Nat} {z : Fin 65} {answers : List Bool} {writes : Nat} {s : State}
    (line : s.line = .script (true :: true :: answers) writes) :
    ∃ t, searchFrom (n + 1) k z s = .notFound t ∧ t.line = .script answers writes := by
  rw [searchFrom, State.tReadBit_script_cons line]
  dsimp only
  rw [State.tReadBit_script_cons rfl]
  dsimp only
  rw [State.branch_none rfl]
  exact ⟨_, rfl, rfl⟩

/-- With presence and a completed command, an ITER_STEP enters the loop of R114 at position 1. -/
theorem iterStep_script_presence {answers : List Bool} {writes : Nat} {s : State} (last : s.lastDevice = false)
    (line : s.line = .script (true :: answers) (writes + 1)) :
    ∃ t, iterStep s = searchFrom 64 1 0 t ∧ t.line = .script answers writes ∧
      t.srch = s.srch ∧ t.ld = s.ld ∧ t.lastDevice = s.lastDevice := by
  rw [iterStep_of_lastDevice_false last, searchBus, State.tReset_script_cons line]
  dsimp only
  rw [searchCommand, State.tWriteByte_script_succ rfl]
  exact ⟨_, rfl, rfl, rfl, rfl, rfl⟩

/-! ### A run of positions on a list of answers -/

/-- The loop of R114 with the answers `pairs`, about to read position `k`: what the line still holds, the choices made at
the positions before `k`, and `last_zero`. `ld` and `srch` are as the step began. -/
structure Following (pairs : List (Bool × Bool)) (rest : List Bool) (writes : Nat) (ld : Fin 65) (srch : Address)
    (k : Nat) (z : Fin 65) (s : State) : Prop where
  line : s.line = .script (pairAnswers (pairs.drop (k - 1)) ++ rest) (writes + (pairs.drop (k - 1)).length)
  ldEq : s.ld = ld
  lastDevice : s.lastDevice = false
  ahead : ∀ j, k ≤ j → j ≤ 64 → abit s.srch j = abit srch j
  choice : ∀ j b c, 1 ≤ j → j < k → pairs[j - 1]? = some (b, c) → abit s.srch j = direction ld srch j b c
  deepest : ∀ j, 1 ≤ j → j < k → pairs[j - 1]? = some (false, false) → abit s.srch j = false → j ≤ z.val
  zero : z = 0 ∨ 1 ≤ z.val ∧ z.val < k ∧ pairs[z.val - 1]? = some (false, false) ∧ abit s.srch z.val = false

theorem Following.lastZero_lt {pairs : List (Bool × Bool)} {rest : List Bool} {writes : Nat} {ld : Fin 65}
    {srch : Address} {k : Nat} {z : Fin 65} {s : State} (h : Following pairs rest writes ld srch k z s)
    (hk : 1 ≤ k) : z.val < k := by
  rcases h.zero with rfl | ⟨-, lt, -⟩
  · exact hk
  · exact lt

/-- One position of the loop takes its pair off the line. -/
theorem Following.position {pairs : List (Bool × Bool)} {rest : List Bool} {writes : Nat} {ld : Fin 65} {srch : Address}
    {n k : Nat} {z : Fin 65} {s : State} {b c : Bool} (h : Following pairs rest writes ld srch k z s)
    (hk : 1 ≤ k ∧ k ≤ 64) (pair : pairs[k - 1]? = some (b, c)) (both : (b && c) = false) :
    ∃ z' t, searchFrom (n + 1) k z s = searchFrom n (k + 1) z' t ∧
      Following pairs rest writes ld srch (k + 1) z' t := by
  have cut : pairs.drop (k - 1) = (b, c) :: pairs.drop k := by
    obtain ⟨lt, e⟩ := List.getElem?_eq_some_iff.1 pair
    rw [List.drop_eq_getElem_cons lt, e, Nat.sub_add_cancel hk.1]
  have line := h.line
  rw [cut] at line
  obtain ⟨d, dir⟩ : ∃ d, direction s.ld s.srch k b c = d := ⟨_, rfl⟩
  obtain ⟨t, step, lineT, srchT, ldT, lastT⟩ := searchFrom_script_pair (n := n) (z := z) line both dir
  have dir' : direction ld srch k b c = d := by
    rw [← dir, direction_eq, direction_eq, h.ldEq, h.ahead k le_rfl hk.2]
  have bit : ∀ j, 1 ≤ j → j ≤ 64 → abit t.srch j = if j = k then d else abit s.srch j := fun j h1 h2 => by
    rw [srchT, abit_setAbit_of_range hk ⟨h1, h2⟩]
  have val := nextLastZero_val (d := d) (z := z) hk.2 both
  have small := h.lastZero_lt hk.1
  refine ⟨_, t, step, lineT, ldT.trans h.ldEq, lastT.trans h.lastDevice, ?ahead, ?choice, ?deepest, ?zero⟩
  case ahead =>
    intro j h1 h2
    rw [bit j (by omega) h2, if_neg (by omega)]
    exact h.ahead j (by omega) h2
  case choice =>
    intro j b' c' h1 h2 pair'
    rw [bit j h1 (by omega)]
    split
    · subst j
      cases pair.symm.trans pair'
      exact dir'.symm
    · exact h.choice j b' c' h1 (by omega) pair'
  case deepest =>
    intro j h1 h2 pair' zero
    rw [bit j h1 (by omega)] at zero
    rw [val]
    split at zero
    · subst j
      cases pair.symm.trans pair'
      rw [if_pos ⟨rfl, rfl, zero⟩]
    · have := h.deepest j h1 (by omega) pair' zero
      split <;> omega
  case zero =>
    by_cases moved : b = false ∧ c = false ∧ d = false
    · obtain ⟨rfl, rfl, rfl⟩ := moved
      rw [if_pos ⟨rfl, rfl, rfl⟩] at val
      exact .inr (by rw [val, bit k hk.1 hk.2, if_pos rfl]; exact ⟨hk.1, Nat.lt_succ_self k, pair, rfl⟩)
    · rw [if_neg moved] at val
      rw [Fin.ext val]
      rcases h.zero with zero | ⟨h1, h2, pair', zero⟩
      · exact .inl zero
      · exact .inr ⟨h1, by omega, pair', by rw [bit _ h1 (by omega), if_neg (by omega), zero]⟩

/-- The loop takes all the pairs off the line, when none of them aborts it. -/
theorem Following.run {pairs : List (Bool × Bool)} {rest : List Bool} {writes : Nat} {ld : Fin 65} {srch : Address}
    {m n k : Nat} {z : Fin 65} {s : State} (h : Following pairs rest writes ld srch k z s) (hk : 1 ≤ k)
    (hn : n + k = pairs.length + 1) (short : pairs.length ≤ 64) (answered : ∀ p ∈ pairs, p ≠ (true, true)) :
    ∃ z' t, searchFrom (m + n) k z s = searchFrom m (pairs.length + 1) z' t ∧
      Following pairs rest writes ld srch (pairs.length + 1) z' t := by
  induction n generalizing k z s with
  | zero =>
    obtain rfl : k = pairs.length + 1 := by omega
    exact ⟨z, s, rfl, h⟩
  | succ n ih =>
    obtain ⟨⟨b, c⟩, pair⟩ : ∃ p, pairs[k - 1]? = some p := ⟨_, List.getElem?_eq_getElem (by omega)⟩
    have both : (b && c) = false := by
      simpa using answered (b, c) (List.mem_of_getElem? pair)
    obtain ⟨z1, s1, step, next⟩ := h.position (n := m + n) ⟨hk, by omega⟩ pair both
    obtain ⟨z', t, later, following⟩ := ih next (by omega) (by omega)
    exact ⟨z', t, step.trans later, following⟩

/-- An ITER_STEP with presence takes all the pairs off the line, when none of them aborts it. -/
theorem iterStep_script_run {pairs : List (Bool × Bool)} {rest : List Bool} {writes : Nat} {s : State}
    (last : s.lastDevice = false) (short : pairs.length ≤ 64) (answered : ∀ p ∈ pairs, p ≠ (true, true))
    (line : s.line = .script (true :: (pairAnswers pairs ++ rest)) (writes + pairs.length + 1)) :
    ∃ z t, iterStep s = searchFrom (64 - pairs.length) (pairs.length + 1) z t ∧ t.line = .script rest writes ∧
      Following pairs rest writes s.ld s.srch (pairs.length + 1) z t := by
  obtain ⟨s1, opened, line1, srch1, ld1, last1⟩ := iterStep_script_presence last line
  have start : Following pairs rest writes s.ld s.srch 1 0 s1 :=
    ⟨line1, ld1, last1.trans last, fun _ _ _ => by rw [srch1], fun _ _ _ _ _ => by omega, fun _ _ _ => by omega,
      .inl rfl⟩
  obtain ⟨z, t, run, following⟩ := start.run (m := 64 - pairs.length) le_rfl rfl short answered
  rw [Nat.sub_add_cancel short] at run
  exact ⟨z, t, opened.trans run, by simpa [pairAnswers] using following.line, following⟩

/-- Settles O28: with 64 pairs the loop runs to its end, and the step yields what it followed. -/
theorem iterStepFollowsTheAnswers : Obligations.IterStepFollowsTheAnswers := by
  unfold Obligations.IterStepFollowsTheAnswers
  intro s pairs rest writes last length answered line
  obtain ⟨z, u, run, lineU, following⟩ := iterStep_script_run last length.le answered (by rw [line, length])
  rw [length] at run following
  refine ⟨u.yieldAddress z, run, lineU, rfl, ?_, ?_, ?_, ?_⟩
  · intro k b c h1 h2 pair
    rw [← direction_eq]
    exact following.choice k b c h1 (by omega) pair
  · exact fun k h1 h2 pair zero => following.deepest k h1 (by omega) pair zero
  · intro ne
    obtain ⟨-, -, pair, zero⟩ := following.zero.resolve_left ne
    exact ⟨pair, zero⟩
  · simp [following.lastDevice]

/-- Settles O30: LAST_DEVICE, no presence, and a run of pairs with an abort after it; the frame of a search leaves ADDR
and rewinds. -/
theorem iterStepReportsNotFound : Obligations.IterStepReportsNotFound := by
  unfold Obligations.IterStepReportsNotFound
  refine ⟨fun s last => ?_, fun s rest writes last line => ?_,
    fun s pairs rest writes last length answered line => ?_⟩
  · exact ⟨s.iterRestart, iterStep_of_lastDevice_true last, ⟨rfl, rfl, rfl⟩, rfl, rfl, rfl⟩
  · rw [iterStep_of_lastDevice_false last, searchBus, State.tReset_script_cons line]
    exact ⟨_, rfl, ⟨rfl, rfl, rfl⟩, rfl, rfl, rfl⟩
  · obtain ⟨z, u, run, lineU, -⟩ := iterStep_script_run last length.le answered line
    obtain ⟨n, more⟩ : ∃ n, 64 - pairs.length = n + 1 := ⟨63 - pairs.length, by omega⟩
    rw [more] at run
    obtain ⟨t, aborted, lineT⟩ := searchFrom_script_abort (n := n) (k := pairs.length + 1) (z := z) lineU
    have notFound := run.trans aborted
    obtain ⟨-, addr, rewound⟩ := iterFrom_frame_of_eq (point := .entry) notFound
    exact ⟨t, notFound, rewound, addr, lineT⟩

end Sys2Proof.Machine
end

section
/-! The iterator on the ideal bus: a whole pass from a rewound iterator (spec/41_iterator.md R118), and the first step
after ITER_TARGET (R119, R122). -/

namespace Sys2Proof.Machine

/-! ### A whole pass -/

/-- Only one order of the same addresses is tree order. -/
theorem eq_of_perm_of_treeLt {l m : List Address} (perm : l.Perm m) (sorted : l.Pairwise treeLt)
    (sorted' : m.Pairwise treeLt) : l = m :=
  perm.eq_of_pairwise (fun _ _ _ _ lt gt => absurd gt (treeLt_asymm lt)) sorted sorted'

/-- Settles O35: a pass yields the population in tree order and leaves the iterator exhausted, so the next step rewinds
it, and the pass after that is the same. -/
theorem iteratorVisitsEveryDeviceInTreeOrder : Obligations.IteratorVisitsEveryDeviceInTreeOrder := by
  unfold Obligations.IteratorVisitsEveryDeviceInTreeOrder
  intro s population bus nodup rewound
  by_cases empty : population = []
  · subst empty
    obtain ⟨t, notFound, -, -, busT, history⟩ := iterStep_ideal_empty bus rewound.2.2
    exact ⟨[], s, t.iterRestart, .nil, .nil, rfl, fun ne => absurd rfl ne, notFound, ⟨rfl, rfl, rfl⟩, busT, history,
      nofun⟩
  · obtain ⟨yields, u, row, perm, sorted, stands, last⟩ := iterYields_of_rewound bus nodup empty rewound
    have bus' : u.iterRestart.OnIdealBus population := stands.line
    obtain ⟨yields', w, row', perm', sorted', -⟩ := iterYields_of_rewound bus' nodup empty ⟨rfl, rfl, rfl⟩
    obtain rfl := eq_of_perm_of_treeLt (perm.symm.trans perm') sorted sorted'
    refine ⟨yields, u, u.iterRestart, perm.symm, sorted, row, fun _ => last, iterStep_of_lastDevice_true last,
      ⟨rfl, rfl, rfl⟩, bus', by rw [if_neg empty]; rfl, fun a first => ?_⟩
    obtain ⟨later, rfl⟩ := List.head?_eq_some_iff.1 first
    obtain ⟨v, found, addr, -⟩ := iterYields_cons_inv row'
    exact ⟨v, found, addr⟩

/-! ### Families and twins by positions -/

/-- The family code is positions 1 to 8 (spec/00_scope.md R9). -/
theorem family_eq_iff {a b : Address} : family a = family b ↔ agreeBefore 9 a b := by
  have bit : ∀ (a : Address) (i : Nat), i < 8 → abit a (i + 1) = (family a).getLsbD i := fun a i hi => by
    simp [abit, Nat.div_eq_of_lt hi, Nat.mod_eq_of_lt hi, addrByte, family]
  constructor
  · intro same j h1 h2
    obtain ⟨i, rfl⟩ := Nat.exists_eq_add_of_le' h1
    rw [bit a i (by omega), bit b i (by omega), same]
  · intro agree
    refine BitVec.eq_of_getLsbD_eq fun i hi => ?_
    rw [← bit a i hi, ← bit b i hi]
    exact agree (i + 1) (by omega) (by omega)

/-- After ITER_TARGET the search path is 0 beyond the family code (R112). -/
theorem abit_target_beyond {f : Byte} {k : Nat} (h1 : 8 < k) (h2 : k ≤ 64) :
    abit { Address.zero with b0 := f } k = false := by
  have zero : addrByte { Address.zero with b0 := f } ((k - 1) / 8) = 0 := by
    have : 1 ≤ (k - 1) / 8 := by omega
    have : (k - 1) / 8 ≤ 7 := by omega
    generalize (k - 1) / 8 = i at *
    interval_cases i <;> rfl
  simp [abit, zero]

theorem agreeTo63_iff {a b : Address} : agreeTo63 a b ↔ agreeBefore 64 a b := by
  constructor
  · exact fun agree j h1 h2 => agree j (List.mem_range'_1.2 ⟨h1, by omega⟩)
  · intro agree j hj
    rw [List.mem_range'_1] at hj
    exact agree j hj.1 (by omega)

/-! ### The first step after ITER_TARGET -/

/-- Where a targeted step leaves a device, it took the target's bit before position 64 and 1 there (R112, R114). -/
theorem Landing.targeted {population : List Address} {f : Byte} {t : State} {b : Address} {j : Nat}
    (land : Landing population 64 { Address.zero with b0 := f } t) (mem : b ∈ population)
    (diff : firstDiff j b t.srch) :
    abit t.srch j = if j < 64 then abit { Address.zero with b0 := f } j else true := by
  rw [(land.choice b mem j diff).1]
  have := diff.2.1
  change (if j < 64 then _ else decide (j = 64)) = _
  split
  · rfl
  · exact decide_eq_true (by omega)

/-- With a device of the family, the targeted step lands in the family: it does not leave the device before position 9. -/
theorem Landing.family_of_targeted {population : List Address} {t : State} {a : Address}
    (land : Landing population 64 { Address.zero with b0 := family a } t) (mem : a ∈ population) :
    family t.srch = family a := by
  by_contra other
  obtain ⟨j, diff⟩ := exists_firstDiff fun same : a = t.srch => other (by rw [same])
  have early : j < 9 := by
    by_contra late
    exact other (family_eq_iff.2 (diff.symm.2.2.1.mono (by omega)))
  have targeted := land.targeted mem diff
  rw [if_pos (by omega)] at targeted
  have target : agreeBefore 9 { Address.zero with b0 := family a } a := family_eq_iff.1 rfl
  exact diff.2.2.2 ((target j diff.1 early).symm.trans targeted.symm)

/-- A device of the family the targeted step landed in is the twin at position 64, or comes later in tree order. -/
theorem Landing.twin_or_later {population : List Address} {f : Byte} {t : State} {b : Address}
    (land : Landing population 64 { Address.zero with b0 := f } t) (mem : b ∈ population)
    (same : family t.srch = family b) (ne : b ≠ t.srch) :
    (agreeTo63 t.srch b ∧ abit t.srch 64 = true) ∨ (¬ agreeTo63 t.srch b ∧ treeLt t.srch b) := by
  obtain ⟨j, diff⟩ := exists_firstDiff ne
  have targeted := land.targeted mem diff
  rw [agreeTo63_iff]
  have beyond : 8 < j := by
    by_contra early
    exact diff.symm.2.2.2 (family_eq_iff.1 same j diff.1 (by omega))
  by_cases twin : j = 64
  · subst twin
    exact .inl ⟨diff.symm.2.2.1, targeted⟩
  · have before : j < 64 := lt_of_le_of_ne diff.2.1 twin
    rw [if_pos before, abit_target_beyond beyond diff.2.1] at targeted
    exact .inr ⟨fun agree => diff.symm.2.2.2 (agree j diff.1 before), treeLt_of_firstDiff diff.symm targeted⟩

/-- ITER_STEP after ITER_TARGET on the ideal bus with some device yields. -/
theorem iterStep_target_found {population : List Address} {s : State} (f : Byte) (bus : s.OnIdealBus population)
    (devices : population ≠ []) :
    ∃ t, iterStep (s.iterTarget f) = .found t ∧ Landing population 64 { Address.zero with b0 := f } t := by
  obtain ⟨t, found, land, -⟩ := iterStep_ideal_found (s := s.iterTarget f) bus devices rfl
  exact ⟨t, found, land⟩

/-- Settles O36, by where the targeted step leaves the path of another device. -/
theorem targetedStepLandsInTheFamily : Obligations.TargetedStepLandsInTheFamily := by
  unfold Obligations.TargetedStepLandsInTheFamily
  intro s population f bus _
  refine ⟨?_, fun devices => ?_, ?_⟩
  · rintro ⟨a, mem, rfl⟩
    obtain ⟨t, found, land⟩ := iterStep_target_found (family a) bus (List.ne_nil_of_mem mem)
    have inFamily := land.family_of_targeted mem
    refine ⟨t, found, ?_⟩
    rw [land.addr]
    exact ⟨land.member, inFamily, fun b memB same => land.twin_or_later memB (inFamily.trans same.symm)⟩
  · obtain ⟨t, found, land⟩ := iterStep_target_found f bus devices
    exact ⟨t, found, land.addr ▸ land.member⟩
  · rintro rfl
    obtain ⟨t, notFound, -⟩ := iterStep_ideal_empty (s := s.iterTarget f) bus rfl
    exact ⟨_, notFound⟩

/-! ### Twins -/

/-- Two valid addresses do not differ at position 64 alone: flipping a position makes a valid address invalid (R104). -/
theorem not_valid_twins {a b : Address} (diff : firstDiff 64 a b) : ¬ (valid a = true ∧ valid b = true) := by
  rintro ⟨validA, validB⟩
  have flip : b = setAbit a 64 (!abit a 64) := eq_of_abit fun k hk => by
    rw [abit_setAbit_of_range ⟨by omega, le_rfl⟩ hk]
    split
    · subst k
      exact Bool.eq_not.2 diff.symm.2.2.2
    · exact (diff.2.2.1 k hk.1 (by omega)).symm
  rw [flip, valid_flip a 64 (by omega) le_rfl validA] at validB
  cases validB

/-- Settles O37: at position 64, the only one where the two differ, the targeted step takes the 1-branch, and it takes the
0-branch at no discrepancy. -/
theorem targetedStepSkipsTheTwin : Obligations.TargetedStepSkipsTheTwin := by
  unfold Obligations.TargetedStepSkipsTheTwin
  intro s a b f agree zero one bus
  have diff : firstDiff 64 a b := ⟨by omega, le_rfl, agreeTo63_iff.1 agree, by simp [zero, one]⟩
  refine ⟨not_valid_twins diff, ?_⟩
  obtain ⟨t, found, land⟩ := iterStep_target_found f bus (List.cons_ne_nil _ _)
  have atB : t.srch = b := by
    rcases List.mem_pair.1 land.member with atA | atB
    · have taken := land.targeted (b := b) (by simp) (atA ▸ diff.symm)
      rw [atA, zero] at taken
      cases taken
    · exact atB
  have exhausted : t.ld = 0 := by
    refine land.zero.resolve_right ?_
    rintro ⟨c, mem, branch, zeroBranch⟩
    rw [atB] at branch zeroBranch
    rcases List.mem_pair.1 mem with rfl | rfl
    · rw [← firstDiff_unique diff branch, one] at zeroBranch
      cases zeroBranch
    · exact branch.2.2.2 rfl
  exact ⟨t, found, land.addr.trans atB, by simp [land.lastDevice, exhausted]⟩

end Sys2Proof.Machine
end

section
/-! FULL_SCAN and STEP_NEXT (spec/42_enumeration.md): what the loop around ITER_STEP leaves on any bus, and the
pass over the ideal bus that the two commands make. -/

namespace Sys2Proof.Machine

/-! ### The ways out of the loop -/

section WaysOut

variable {α : Type} {task : α → BusTask} {onYield : α → State → LoopNext α} {onEnd : α → State → State}
  {n : Nat} {x : α} {point : Await} {s t u : State}

theorem iterLoop_ends (notFound : iterFrom point s = .notFound t) :
    iterLoop task onYield onEnd n x point s = .next (onEnd x t) := by
  unfold iterLoop
  rw [notFound]

theorem iterLoop_done (found : iterFrom point s = .found t) (done : onYield x t = .done u) :
    iterLoop task onYield onEnd n x point s = .next u := by
  unfold iterLoop
  rw [found]
  simp only [done]

variable (task onYield onEnd s) in
/-- The ways out of a loop that is not refused: it leaves its command running, ends after "not found", or ends at a
yield. Until then it has written only what the iterator writes. -/
inductive LoopOutcome : State → Prop
  | waits {x : α} {point : Await} {u : State} (same : s.SameRegisters u) : LoopOutcome (u.suspend (task x) point)
  | ends {x : α} {u : State} (same : s.SameRegisters u) : LoopOutcome (onEnd x u)
  | done {x : α} {u t : State} (same : s.SameRegisters u) (addr : u.addr = u.srch) (yielded : onYield x u = .done t) :
    LoopOutcome t

theorem iterLoop_outcome (h : iterLoop task onYield onEnd n x point s = .next t) :
    LoopOutcome task onYield onEnd s t := by
  refine iterLoop_rule (fun _ _ u => s.SameRegisters u) (fun r => ∀ t, r = .next t → LoopOutcome task onYield onEnd s t)
    ?waits ?ends ?done ?refuse ?again ?rests n x point s (State.SameRegisters.refl s) t h
  case waits =>
    intro x point u point' v same out t e
    cases e
    exact .waits (same.trans (iterFrom_frame_of_eq out).1)
  case ends =>
    intro x point u v same out t e
    cases e
    exact .ends (same.trans (iterFrom_frame_of_eq out).1)
  case done =>
    intro x point u v w same out yielded t e
    obtain ⟨same', addr, -⟩ := iterFrom_frame_of_eq out
    cases e
    exact .done (same.trans same') addr yielded
  case refuse => exact fun _ _ _ _ _ _ _ _ _ e => nomatch e
  case again => exact fun _ _ _ _ _ same out _ => same.trans (iterFrom_frame_of_eq out).1
  case rests =>
    intro x u same t e
    cases e
    exact .waits same

end WaysOut

/-! ### What the bus commands leave on any bus -/

/-- Settles O40: FULL_SCAN's loop only ends after "not found", where its local count gives COUNT and RESULT. -/
theorem fullScanCompletedState : Obligations.FullScanCompletedState := by
  unfold Obligations.FullScanCompletedState
  intro s t h
  rw [exec_fullScan] at h
  have loop := (State.accept_next h).2
  refine ⟨(fullScanLoop_matchSeen loop :), ?_⟩
  cases iterLoop_outcome loop with
  | waits same => exact ⟨nofun, fun _ => ⟨same.count, same.result⟩⟩
  | @ends n u =>
    refine ⟨fun _ => ⟨⟨rfl, rfl, rfl⟩, ?_⟩, nofun⟩
    by_cases none : n = 0
    · exact .inr ⟨if_pos none, none⟩
    · exact .inl ⟨if_neg none, none⟩
  | done _ _ out => exact absurd out fullScanYield_ne_done

/-- Settles O43: STEP_NEXT's loop ends at a yield of the target family or after "not found". -/
theorem stepNextCompletedState : Obligations.StepNextCompletedState := by
  unfold Obligations.StepNextCompletedState
  intro s t h
  rw [exec_stepNext] at h
  have loop := (State.accept_next h).2
  refine ⟨(stepNextLoop_count loop :), ?_⟩
  cases iterLoop_outcome loop with
  | waits same => exact ⟨nofun, fun _ => ⟨same.matchSeen, same.result⟩⟩
  | @ends _ u same =>
    have seen : u.matchSeen = s.matchSeen := same.matchSeen
    exact ⟨fun _ => .inr ⟨by rw [← seen]; rfl, rfl, rfl, rfl, rfl⟩, nofun⟩
  | @done _ u _ same addr out =>
    obtain ⟨target, rfl⟩ := stepNextYield_done out
    have params : u.params = s.params := same.params
    exact ⟨fun _ => .inl ⟨rfl, rfl, addr.symm, params ▸ target⟩, nofun⟩

/-- The fields that belong to the host and the configuration. -/
def State.surroundings (s : State) : Params × Byte × List Byte × Bool := (s.params, s.pin, s.port, s.resetRequest)

theorem State.SameRegisters.surroundings {s t : State} (h : s.SameRegisters t) :
    t.surroundings = s.surroundings := by
  simp [State.surroundings, h.params, h.pin, h.port, h.resetRequest]

theorem fullScanLoop_surroundings {n : Byte} {point : Await} {s t : State} (h : fullScanLoop n point s = .next t) :
    t.surroundings = s.surroundings :=
  iterLoop_keeps State.surroundings h State.SameRegisters.surroundings (fun _ _ _ => rfl)
    (fun out => absurd out fullScanYield_ne_done) (fun _ _ => rfl)

theorem stepNextLoop_surroundings {point : Await} {s t : State} (h : stepNextLoop point s = .next t) :
    t.surroundings = s.surroundings :=
  iterLoop_keeps State.surroundings h State.SameRegisters.surroundings (fun _ _ _ => rfl)
    (fun out => by rw [(stepNextYield_done out).2]; rfl) (fun _ _ => rfl)

theorem confirmLoop_surroundings {a : Address} {point : Await} {s t : State} (h : confirmLoop a point s = .next t) :
    t.surroundings = s.surroundings :=
  iterLoop_keeps State.surroundings h State.SameRegisters.surroundings (fun _ _ _ => rfl)
    (fun out => by rw [confirmYield_done out]; rfl) (fun _ _ => rfl)

/-- Settles O49: each loop leaves the surroundings alone, and after its acceptance a command only adds events. -/
theorem busCommandFrame : Obligations.BusCommandFrame := by
  unfold Obligations.BusCommandFrame
  intro i s t command h
  obtain ⟨new, grows, -⟩ := (exec_after h).grows
  have kept : t.surroundings = s.surroundings := by
    rcases command with rfl | rfl | ⟨a, rfl⟩
    · rw [exec_fullScan] at h
      exact (fullScanLoop_surroundings (State.accept_next h).2 :)
    · rw [exec_stepNext] at h
      exact (stepNextLoop_surroundings (State.accept_next h).2 :)
    · rw [exec_confirmPresent] at h
      exact (confirmLoop_surroundings (State.accept_next h).2 :)
  simp only [State.surroundings, Prod.mk.injEq] at kept
  obtain ⟨params, pin, port, reset⟩ := kept
  exact ⟨params, pin, port, reset, new, grows⟩

theorem stepNextLoop_ends {point : Await} {s t : State} (notFound : iterFrom point s = .notFound t) :
    stepNextLoop point s = .next (stepNextEnd () t) :=
  iterLoop_ends notFound

/-- Settles O39: an exhausted iterator reports "not found" at once. -/
theorem stepNextAfterTheLastDevice : Obligations.StepNextAfterTheLastDevice := by
  unfold Obligations.StepNextAfterTheLastDevice
  intro s idle last
  rw [exec_stepNext, State.accept_idle idle]
  have exhausted : iterFrom .entry (s.record (.accepted Instr.stepNext.opcode Instr.stepNext.operand)) = _ :=
    iterStep_of_lastDevice_true last
  rw [stepNextLoop_ends exhausted]
  cases seen : s.matchSeen <;>
    simp [stepNextEnd, seen, State.report, State.respond, State.iterRestart, State.record, Instr.opcode,
      Instr.operand, resultByte, show s.control = .idle from idle]

/-! ### FULL_SCAN over a row of yields -/

theorem iterYields_addr {yields : List Address} {s u : State} (row : iterYields yields.length s = some (yields, u)) :
    u.addr = yields.getLastD s.addr := by
  induction yields generalizing s with
  | nil =>
    cases row
    rfl
  | cons a yields ih =>
    obtain ⟨t, -, rfl, rest⟩ := iterYields_cons_inv row
    rw [ih rest, List.getLastD_cons]

theorem iterYields_same {yields : List Address} {s u : State} (row : iterYields yields.length s = some (yields, u)) :
    s.SameRegisters u := by
  induction yields generalizing s with
  | nil =>
    cases row
    exact State.SameRegisters.refl _
  | cons a yields ih =>
    obtain ⟨t, found, -, rest⟩ := iterYields_cons_inv row
    exact (iterFrom_frame_of_eq (point := .entry) found).1.trans (ih rest)

theorem iterYields_primitives {yields : List Address} {s u : State}
    (row : iterYields yields.length s = some (yields, u)) :
    primitives u.history = primitives s.history + 194 * yields.length := by
  induction yields generalizing s with
  | nil =>
    cases row
    rfl
  | cons a yields ih =>
    obtain ⟨t, found, -, rest⟩ := iterYields_cons_inv row
    rw [ih rest, iterStep_found_primitives found, List.length_cons]
    omega

/-- FULL_SCAN is refused at a qualifying address only, and only with a full count (R25). -/
theorem fullScanYield_refuse {n : Byte} {s : State} {r : Refusal} (h : fullScanYield n s = .refuse r) :
    qualifies s.params s.addr = true ∧ n = Config.countMax := by
  unfold fullScanYield at h
  split at h
  · split at h
    · exact ⟨‹_›, ‹_›⟩
    · cases h
  · cases h

/-- FULL_SCAN counts the qualifying addresses of a row of yields, while its count takes them, and ends after it. -/
theorem fullScan_counts {yields : List Address} {m : Nat} {n : Byte} {s u v : State}
    (row : iterYields yields.length s = some (yields, u)) (ended : iterStep u = .notFound v)
    (room : yields.length ≤ m) (few : n.toNat + yields.countP (qualifies s.params) < 256) :
    ∃ n' : Byte, iterLoop .fullScan fullScanYield fullScanEnd m n .entry s = .next (fullScanEnd n' v) ∧
      n'.toNat = n.toNat + yields.countP (qualifies s.params) := by
  induction yields generalizing m n s with
  | nil =>
    cases row
    exact ⟨n, iterLoop_ends ended, rfl⟩
  | cons a yields ih =>
    obtain ⟨t, found, rfl, rest⟩ := iterYields_cons_inv row
    have params : t.params = s.params := (iterFrom_frame_of_eq (point := .entry) found).1.params
    obtain ⟨m, rfl⟩ : ∃ k, m = k + 1 := Nat.exists_eq_succ_of_ne_zero (Nat.ne_zero_of_lt room)
    rw [← params, List.countP_cons] at few ⊢
    rcases fullScanYield_cases n t with refuse | ⟨n', again, count⟩
    · obtain ⟨qualified, full⟩ := fullScanYield_refuse refuse
      rw [if_pos qualified, full, show Config.countMax.toNat = 255 from rfl] at few
      omega
    · obtain ⟨n'', scanned, total⟩ := ih (n := n') rest (Nat.le_of_succ_le_succ room) (by omega)
      exact ⟨n'', (iterLoop_again (point := .entry) found again).trans scanned, by omega⟩

/-- After a row of yields in tree order, ADDR holds the last of them (R131). -/
theorem iterYields_last {yields : List Address} {s u : State} (row : iterYields yields.length s = some (yields, u))
    (sorted : yields.Pairwise treeLt) (devices : yields ≠ []) :
    u.addr ∈ yields ∧ ∀ b ∈ yields, b ≠ u.addr → treeLt b u.addr := by
  have addr : u.addr = yields.getLast devices := by
    rw [iterYields_addr row, List.getLastD_eq_getLast?, List.getLast?_eq_some_getLast devices, Option.getD_some]
  rw [addr]
  exact ⟨List.getLast_mem devices, fun b mem ne =>
    sorted.rel_dropLast_getLast (List.mem_dropLast_of_mem_of_ne_getLast mem ne)⟩

/-- FULL_SCAN's loop over the ideal bus, from a rewound iterator: its row of yields is the population in tree order, and
the step after the row ends it. -/
theorem fullScanLoop_ideal {population : List Address} {s : State} (bus : s.OnIdealBus population)
    (nodup : population.Nodup) (rewound : s.Rewound) (few : population.countP (qualifies s.params) < 256) :
    ∃ (n : Byte) (v : State), fullScanLoop 0 .entry s = .next (fullScanEnd n v) ∧
      n.toNat = population.countP (qualifies s.params) ∧ s.SameRegisters v ∧ v.OnIdealBus population ∧
      (population = [] → v.addr = s.addr) ∧
      (population ≠ [] → v.addr ∈ population ∧ ∀ b ∈ population, b ≠ v.addr → treeLt b v.addr) ∧
      primitives v.history = primitives s.history + if population = [] then 1 else 194 * population.length := by
  obtain ⟨yields, u, v, perm, sorted, row, -, ended, -, busV, history, -⟩ :=
    iteratorVisitsEveryDeviceInTreeOrder s population bus nodup rewound
  obtain ⟨same, addr, -⟩ := iterFrom_frame_of_eq (point := .entry) ended
  have room : yields.length ≤ s.line.burst := by
    obtain ⟨line, e, rfl⟩ := bus
    rw [perm.length_eq, e]
    exact Nat.le_succ _
  have zero : (0 : Byte).toNat + yields.countP (qualifies s.params) = population.countP (qualifies s.params) := by
    rw [perm.countP_eq]
    exact Nat.zero_add _
  obtain ⟨n, scanned, count⟩ := fullScan_counts row ended room (zero ▸ few)
  refine ⟨n, v, scanned, count.trans zero, (iterYields_same row).trans same, busV, ?empty, ?last, ?primitives⟩
  case empty =>
    rintro rfl
    rw [addr, iterYields_addr row, perm.eq_nil]
    rfl
  case last =>
    intro devices
    obtain ⟨mem, last⟩ := iterYields_last row sorted fun e => devices (e ▸ perm).nil_eq.symm
    exact addr ▸ ⟨perm.mem_iff.1 mem, fun b memB => last b (perm.mem_iff.2 memB)⟩
  case primitives =>
    have primitivesU := iterYields_primitives row
    rw [perm.length_eq] at primitivesU
    split at history
    · next empty => simp [history, primitivesU, empty, Event.isPrimitive]
    · next devices => rw [history, primitivesU, if_neg devices]

/-- Settles O41, by the pass of FULL_SCAN's loop from the iterator it has rewound. -/
theorem fullScanCountsQualifyingDevices : Obligations.FullScanCountsQualifyingDevices := by
  unfold Obligations.FullScanCountsQualifyingDevices
  intro s population idle bus nodup few
  obtain ⟨n, v, scanned, count, same, busV, empty, last, issued⟩ :=
    fullScanLoop_ideal (s := (s.record (.accepted Instr.fullScan.opcode Instr.fullScan.operand)).iterRestart)
      bus nodup ⟨rfl, rfl, rfl⟩ few
  have none : population.countP (qualifies s.params) = 0 ↔ n = 0 := by
    rw [← BitVec.toNat_inj, count]
    rfl
  refine ⟨fullScanEnd n v, ?scanned, rfl, ⟨rfl, rfl, rfl⟩, busV, count, ?result, same.matchSeen, empty, last, ?issued⟩
  case scanned =>
    rw [exec_fullScan, State.accept_idle idle]
    exact scanned
  case result =>
    simp only [none]
    rfl
  case issued =>
    simpa [fullScanEnd, Event.isPrimitive] using issued

/-! ### The devices a pass has still to yield -/

/-- On the ideal bus the iterator has still to yield `devices`, in tree order: it is rewound and they are the whole
population, or it stands at a device and they are the later ones. -/
structure Ahead (population devices : List Address) (s : State) : Prop where
  line : s.OnIdealBus population
  sorted : devices.Pairwise treeLt
  place : (s.Rewound ∧ population.Perm devices) ∨
    (Standing population s ∧ (laterThan s.srch population).Perm devices)

/-- A rewound iterator has the whole population ahead. -/
theorem exists_ahead_of_rewound {population : List Address} {s : State} (bus : s.OnIdealBus population)
    (nodup : population.Nodup) (rewound : s.Rewound) :
    ∃ devices, devices.Perm population ∧ Ahead population devices s := by
  obtain ⟨yields, -, -, perm, sorted, -⟩ := iteratorVisitsEveryDeviceInTreeOrder s population bus nodup rewound
  exact ⟨yields, perm, bus, sorted, .inl ⟨rewound, perm.symm⟩⟩

theorem Ahead.subset {population devices : List Address} {s : State} (h : Ahead population devices s) :
    devices ⊆ population := by
  rcases h.place with ⟨-, perm⟩ | ⟨-, perm⟩
  · exact perm.symm.subset
  · exact fun b mem => (mem_laterThan.1 (perm.mem_iff.2 mem)).1

theorem Ahead.length_le {population devices : List Address} {s : State} (h : Ahead population devices s) :
    devices.length ≤ population.length := by
  rcases h.place with ⟨-, perm⟩ | ⟨-, perm⟩
  · exact perm.length_eq.ge
  · exact perm.length_eq ▸ List.length_filter_le _ _

/-- What is ahead depends on the iterator and the line only. -/
theorem Ahead.of_iterator {population devices : List Address} {s t : State} (h : Ahead population devices s)
    (srch : t.srch = s.srch) (ld : t.ld = s.ld) (last : t.lastDevice = s.lastDevice) (line : t.line = s.line) :
    Ahead population devices t := by
  have bus : t.OnIdealBus population := by
    rw [State.OnIdealBus, line]
    exact h.line
  refine ⟨bus, h.sorted, ?_⟩
  rcases h.place with ⟨⟨zero, zeroLd, off⟩, perm⟩ | ⟨⟨member, later, branch, lastDevice, -⟩, perm⟩
  · exact .inl ⟨⟨srch.trans zero, ld.trans zeroLd, last.trans off⟩, perm⟩
  · exact .inr ⟨⟨srch ▸ member, srch ▸ ld ▸ later, srch ▸ ld ▸ branch, last ▸ ld ▸ lastDevice, bus⟩, srch ▸ perm⟩

/-- The iterator is exhausted where it stands exactly when no device comes later (R23). -/
theorem Standing.lastDevice_iff {population : List Address} {s : State} (h : Standing population s) :
    s.lastDevice = true ↔ laterThan s.srch population = [] := by
  constructor
  · intro last
    refine List.eq_nil_iff_forall_not_mem.2 fun b mem => ?_
    obtain ⟨mem, later⟩ := mem_laterThan.1 mem
    exact treeLt_asymm later (h.last last b mem fun e => treeLt_irrefl _ (e ▸ later))
  · intro none
    rw [h.lastDevice, beq_iff_eq]
    refine h.branch.resolve_right ?_
    rintro ⟨b, mem, diff, zero⟩
    have later : b ∈ laterThan s.srch population := mem_laterThan.2 ⟨mem, treeLt_of_firstDiff diff.symm zero⟩
    rw [none] at later
    cases later

/-- Two orders of the same addresses that begin with the first in tree order begin alike. -/
theorem cons_perm_cons_of_first {a b : Address} {l m : List Address} (perm : (a :: l).Perm (b :: m))
    (first : ∀ c ∈ l, treeLt a c) (first' : ∀ c ∈ m, treeLt b c) : a = b ∧ l.Perm m := by
  have same : a = b := by
    by_contra ne
    have memA := (List.mem_cons.1 (perm.mem_iff.1 List.mem_cons_self)).resolve_left ne
    have memB := (List.mem_cons.1 (perm.mem_iff.2 List.mem_cons_self)).resolve_left (Ne.symm ne)
    exact treeLt_asymm (first b memB) (first' a memA)
  subst same
  exact ⟨rfl, perm.cons_inv⟩

/-- With a device ahead, ITER_STEP yields it, and the others are ahead then. -/
theorem Ahead.step {population devices : List Address} {a : Address} {s : State}
    (h : Ahead population (a :: devices) s) (nodup : population.Nodup) :
    ∃ t, iterStep s = .found t ∧ t.addr = a ∧ t.srch = a ∧ Ahead population devices t := by
  have devicesOnBus : population ≠ [] := List.ne_nil_of_mem (h.subset List.mem_cons_self)
  have lands : ∃ t, iterStep s = .found t ∧ t.addr = t.srch ∧ Standing population t ∧
      (t.srch :: laterThan t.srch population).Perm (a :: devices) := by
    rcases h.place with ⟨⟨-, ld, last⟩, perm⟩ | ⟨stands, perm⟩
    · obtain ⟨t, found, land, -⟩ := iterStep_ideal_found h.line devicesOnBus last
      rw [ld] at land
      exact ⟨t, found, land.addr, land.standing, (land.population_perm nodup).symm.trans perm⟩
    · have last : s.lastDevice = false := by
        rw [← Bool.not_eq_true, stands.lastDevice_iff]
        exact fun none => List.not_mem_nil (none ▸ perm.mem_iff.2 List.mem_cons_self)
      obtain ⟨t, found, land, -⟩ := iterStep_ideal_found h.line devicesOnBus last
      have shrinks := stands.laterThan_perm (stands.ld_ne_zero last) land nodup
      exact ⟨t, found, land.addr, land.standing, shrinks.symm.trans perm⟩
  obtain ⟨t, found, addr, stands, perm⟩ := lands
  obtain ⟨first, sorted⟩ := List.pairwise_cons.1 h.sorted
  obtain ⟨rfl, rest⟩ := cons_perm_cons_of_first perm (fun b mem => (mem_laterThan.1 mem).2) first
  exact ⟨t, found, addr, rfl, stands.line, sorted, .inr ⟨stands, rest⟩⟩

/-- With no device ahead, ITER_STEP reports "not found". -/
theorem Ahead.stops {population : List Address} {s : State} (h : Ahead population [] s) :
    ∃ t, iterStep s = .notFound t ∧ t.OnIdealBus population := by
  rcases h.place with ⟨⟨-, -, last⟩, perm⟩ | ⟨stands, perm⟩
  · obtain rfl := perm.eq_nil
    obtain ⟨t, notFound, -, -, bus, -⟩ := iterStep_ideal_empty h.line last
    exact ⟨t.iterRestart, notFound, bus⟩
  · exact ⟨s.iterRestart, iterStep_of_lastDevice_true (stands.lastDevice_iff.2 perm.eq_nil), h.line⟩

/-! ### STEP_NEXT over the devices ahead -/

theorem stepNextYield_of_target {x : Unit} {s : State} (h : family s.addr = s.params.targetFamily) :
    stepNextYield x s = .done (State.report .success { s with matchSeen := true }) :=
  if_pos (beq_iff_eq.2 h)

theorem stepNextYield_of_foreign {x : Unit} {s : State} (h : family s.addr ≠ s.params.targetFamily) :
    stepNextYield x s = .again () :=
  if_neg fun e => h (beq_iff_eq.1 e)

/-- The devices of a family, in the order of the list. -/
def ofFamily (f : Byte) (devices : List Address) : List Address := devices.filter fun a => family a == f

@[simp] theorem mem_ofFamily {f : Byte} {devices : List Address} {a : Address} :
    a ∈ ofFamily f devices ↔ a ∈ devices ∧ family a = f := by
  simp [ofFamily]

theorem ofFamily_cons_of_eq {f : Byte} {a : Address} (devices : List Address) (h : family a = f) :
    ofFamily f (a :: devices) = a :: ofFamily f devices := List.filter_cons_of_pos (beq_iff_eq.2 h)

theorem ofFamily_cons_of_ne {f : Byte} {a : Address} (devices : List Address) (h : family a ≠ f) :
    ofFamily f (a :: devices) = ofFamily f devices := List.filter_cons_of_neg fun e => h (beq_iff_eq.1 e)

theorem ofFamily_sorted (f : Byte) {devices : List Address} (sorted : devices.Pairwise treeLt) :
    (ofFamily f devices).Pairwise treeLt := sorted.filter _

/-- The loop of STEP_NEXT skips the foreign devices ahead: it ends after "not found" when there is no other, and else at
the first device of the target family, with those after it still ahead (R133). -/
theorem stepNext_loop_ahead {population devices : List Address} {m : Nat} {f : Byte} {s : State}
    (h : Ahead population devices s) (nodup : population.Nodup) (room : devices.length ≤ m)
    (target : s.params.targetFamily = f) :
    (∃ v, iterLoop (fun _ => .stepNext) stepNextYield stepNextEnd m () .entry s = .next (stepNextEnd () v) ∧
      ofFamily f devices = [] ∧ s.SameRegisters v ∧ v.OnIdealBus population) ∨
    (∃ rest v, iterLoop (fun _ => .stepNext) stepNextYield stepNextEnd m () .entry s =
        .next (State.report .success { v with matchSeen := true }) ∧
      ofFamily f devices = v.addr :: ofFamily f rest ∧ s.SameRegisters v ∧ Ahead population rest v ∧
      v.srch = v.addr) := by
  induction devices generalizing m s with
  | nil =>
    obtain ⟨v, notFound, bus⟩ := h.stops
    exact .inl ⟨v, iterLoop_ends notFound, rfl, (iterFrom_frame_of_eq (point := .entry) notFound).1, bus⟩
  | cons a devices ih =>
    obtain ⟨t, found, rfl, srch, ahead⟩ := h.step nodup
    have same : s.SameRegisters t := (iterFrom_frame_of_eq (point := .entry) found).1
    have target' : t.params.targetFamily = f := same.params ▸ target
    by_cases hit : family t.addr = f
    · exact .inr ⟨devices, t, iterLoop_done found (stepNextYield_of_target (hit.trans target'.symm)),
        ofFamily_cons_of_eq devices hit, same, ahead, srch⟩
    · obtain ⟨m, rfl⟩ : ∃ k, m = k + 1 := Nat.exists_eq_succ_of_ne_zero (Nat.ne_zero_of_lt room)
      have again : stepNextYield () t = .again () := stepNextYield_of_foreign (target' ▸ hit)
      rw [iterLoop_again (point := .entry) found again, ofFamily_cons_of_ne devices hit]
      rcases ih ahead (Nat.le_of_succ_le_succ room) target' with
        ⟨v, ended, none, same', bus⟩ | ⟨rest, v, ended, first, same', ahead', srch'⟩
      · exact .inl ⟨v, ended, none, same.trans same', bus⟩
      · exact .inr ⟨rest, v, ended, first, same.trans same', ahead', srch'⟩

/-- STEP_NEXT reported the end of a pass over the ideal bus (R133). -/
structure ReportsEnd (population : List Address) (s t : State) : Prop where
  idle : t.Idle
  rewound : t.Rewound
  line : t.OnIdealBus population
  result : t.result = if s.matchSeen then .endOfEnum else .noDevice
  matchSeen : t.matchSeen = false
  count : t.count = s.count

/-- STEP_NEXT returned a device of the ideal bus, with `rest` still ahead (R133). -/
structure ReturnsDevice (population rest : List Address) (s t : State) : Prop where
  idle : t.Idle
  params : t.params = s.params
  ahead : Ahead population rest t
  result : t.result = .success
  matchSeen : t.matchSeen = true
  count : t.count = s.count
  path : t.srch = t.addr
  response : t.history.head? = some (.response .ack [0x00])

/-- STEP_NEXT on the ideal bus returns the first device of the target family ahead, or reports that there is none. -/
theorem exec_stepNext_ahead {population devices : List Address} {f : Byte} {s : State} (idle : s.Idle)
    (h : Ahead population devices s) (nodup : population.Nodup) (target : s.params.targetFamily = f) :
    ∃ t, exec .stepNext s = .next t ∧ ((ofFamily f devices = [] ∧ ReportsEnd population s t) ∨
      ∃ rest, ofFamily f devices = t.addr :: ofFamily f rest ∧ ReturnsDevice population rest s t) := by
  obtain ⟨start, begun⟩ : ∃ u, u = s.record (.accepted Instr.stepNext.opcode Instr.stepNext.operand) := ⟨_, rfl⟩
  have same : s.SameRegisters start := begun ▸ State.record_same _ s
  have ahead : Ahead population devices start := begun ▸ h.of_iterator rfl rfl rfl rfl
  have room : devices.length ≤ start.line.burst := by
    obtain ⟨line, e, rfl⟩ := ahead.line
    rw [e]
    exact h.length_le.trans (Nat.le_succ _)
  rw [exec_stepNext, State.accept_idle idle, ← begun]
  rcases stepNext_loop_ahead ahead nodup room (same.params ▸ target) with
    ⟨v, ended, none, same', bus⟩ | ⟨rest, v, ended, first, same', ahead', path⟩
  · refine ⟨_, ended, .inl ⟨none, rfl, ⟨rfl, rfl, rfl⟩, bus, ?_, rfl, (same.trans same').count⟩⟩
    rw [← (same.trans same').matchSeen]
    rfl
  · exact ⟨_, ended, .inr ⟨rest, first, rfl, (same.trans same').params, ahead'.of_iterator rfl rfl rfl rfl, rfl, rfl,
      (same.trans same').count, path, rfl⟩⟩

/-- Settles O44: from a rewound iterator the whole population is ahead, so the first device of the target family ahead
is the first of them all. -/
theorem stepNextFromARewoundIterator : Obligations.StepNextFromARewoundIterator := by
  unfold Obligations.StepNextFromARewoundIterator
  intro s population idle bus nodup rewound
  obtain ⟨devices, perm, ahead⟩ := exists_ahead_of_rewound bus nodup rewound
  have mem {a : Address} (onBus : a ∈ population) (target : family a = s.params.targetFamily) :
      a ∈ ofFamily s.params.targetFamily devices := mem_ofFamily.2 ⟨perm.mem_iff.2 onBus, target⟩
  obtain ⟨t, run, ⟨none, ends⟩ | ⟨rest, first, returns⟩⟩ := exec_stepNext_ahead idle ahead nodup rfl
  · refine ⟨?_, fun _ => ⟨t, run, ends.idle, ends.line, ends.rewound, ends.result, ends.matchSeen, ends.count⟩⟩
    rintro ⟨a, onBus, target⟩
    exact absurd (none ▸ mem onBus target) List.not_mem_nil
  · have sorted := ofFamily_sorted s.params.targetFamily ahead.sorted
    rw [first] at mem sorted
    obtain ⟨onBus, target⟩ : t.addr ∈ devices ∧ family t.addr = s.params.targetFamily :=
      mem_ofFamily.1 (first ▸ List.mem_cons_self)
    refine ⟨fun _ => ⟨t, run, returns.idle, returns.ahead.line, returns.result, returns.matchSeen, returns.count,
      returns.path, perm.mem_iff.1 onBus, target, fun b memB targetB ne => ?_, returns.response⟩, fun foreign => ?_⟩
    · have later := (List.mem_cons.1 (mem memB targetB)).resolve_left ne
      exact (List.pairwise_cons.1 sorted).1 b later
    · exact absurd target (foreign _ (perm.mem_iff.1 onBus))

theorem stepNextCalls_succ {n : Nat} {s t u : State} {calls : List (ResultCode × Address)}
    (run : exec .stepNext s = .next t) (idle : t.Idle) (rest : stepNextCalls n t = some (calls, u)) :
    stepNextCalls (n + 1) s = some ((t.result, t.addr) :: calls, u) := by
  simp [stepNextCalls, run, State.busy_eq_false.2 idle, rest]

/-- A row of STEP_NEXT commands returns the devices of the target family ahead, in order, and then reports the end, if
the pass has seen one of them by then (R134). -/
theorem stepNextCalls_visits {population devices visited : List Address} {f : Byte} {s : State} (idle : s.Idle)
    (h : Ahead population devices s) (nodup : population.Nodup) (target : s.params.targetFamily = f)
    (ofTarget : ofFamily f devices = visited) (seen : visited = [] → s.matchSeen = true) :
    ∃ v u, stepNextCalls (visited.length + 1) s =
        some (visited.map (fun a => (.success, a)) ++ [(.endOfEnum, u.addr)], u) ∧ ReportsEnd population v u := by
  induction visited generalizing devices s with
  | nil =>
    obtain ⟨t, run, ⟨-, ends⟩ | ⟨rest, first, -⟩⟩ := exec_stepNext_ahead idle h nodup target
    · have result : t.result = .endOfEnum := ends.result.trans (if_pos (seen rfl))
      exact ⟨s, t, result ▸ stepNextCalls_succ run ends.idle rfl, ends⟩
    · cases ofTarget.symm.trans first
  | cons a visited ih =>
    obtain ⟨t, run, ⟨none, -⟩ | ⟨rest, first, returns⟩⟩ := exec_stepNext_ahead idle h nodup target
    · cases ofTarget.symm.trans none
    · obtain ⟨rfl, later⟩ := List.cons.inj (ofTarget.symm.trans first)
      obtain ⟨v, u, calls, ends⟩ := ih returns.idle returns.ahead (returns.params ▸ target) later.symm
        fun _ => returns.matchSeen
      have row := stepNextCalls_succ run returns.idle calls
      rw [returns.result] at row
      exact ⟨v, u, row, ends⟩

/-- Settles O45: the devices ahead of a rewound iterator are the population, and a row of calls returns those of the
target family; with none of them the one call reports that. -/
theorem stepNextVisitsTheTargetFamily : Obligations.StepNextVisitsTheTargetFamily := by
  unfold Obligations.StepNextVisitsTheTargetFamily
  intro s population idle bus nodup rewound unseen
  refine ⟨?_, fun foreign => ?_⟩
  · rintro ⟨a, onBus, target⟩
    obtain ⟨devices, perm, ahead⟩ := exists_ahead_of_rewound bus nodup rewound
    have targets : ofFamily s.params.targetFamily devices ≠ [] :=
      List.ne_nil_of_mem (mem_ofFamily.2 ⟨perm.mem_iff.2 onBus, target⟩)
    obtain ⟨v, u, calls, ends⟩ := stepNextCalls_visits idle ahead nodup rfl rfl fun none => absurd none targets
    exact ⟨_, u.addr, u, perm.filter _, ofFamily_sorted _ ahead.sorted, calls, ends.idle, ends.rewound,
      ends.matchSeen, ends.line⟩
  · obtain ⟨t, run, idleT, busT, rewoundT, result, unseenT, -⟩ :=
      (stepNextFromARewoundIterator s population idle bus nodup rewound).2 foreign
    exact ⟨t, run, idleT, by simp [result, unseen], rewoundT, unseenT, busT⟩

end Sys2Proof.Machine
end

section
/-! CONFIRM_PRESENT and LOAD_ADDRESS (spec/43_presence_and_load.md): O20, O21, O46 and O47. On the ideal bus
CONFIRM_PRESENT makes one pass from ITER_TARGET, a row of yields that holds every device the targeted step can reach. -/

namespace Sys2Proof.Machine

/-! ### LOAD_ADDRESS -/

theorem exec_loadAddress (a : Address) (s : State) :
    exec (.loadAddress a) s = s.accept (.loadAddress a) fun s =>
      if valid a then .next (State.report .success { s with addr := a })
      else .next (State.report .crcMismatch { s with addr := Address.zero }) := rfl

/-- LOAD_ADDRESS on an idle block: what it writes depends on the operand alone (R144, R145). -/
theorem exec_loadAddress_of_idle (a : Address) {s : State} (idle : s.Idle) :
    exec (.loadAddress a) s = .next (State.report (if valid a then .success else .crcMismatch)
      { s.record (.accepted 0x04 a.toBytes) with addr := if valid a then a else Address.zero }) := by
  rw [exec_loadAddress, State.accept_idle idle]
  cases valid a <;> rfl

/-- On an idle block a report writes RESULT and the response only. -/
theorem State.report_of_idle {s : State} (code : ResultCode) (idle : s.Idle) :
    s.report code = { s with result := code, history := .response .ack [resultByte code] :: s.history } := by
  simp [State.report, State.respond, show s.control = .idle from idle]

/-- Settles O20, by whether the operand is valid. -/
theorem loadAddressResult : Obligations.LoadAddressResult := by
  unfold Obligations.LoadAddressResult
  intro a s idle
  have checksum : crc8 [a.b0, a.b1, a.b2, a.b3, a.b4, a.b5, a.b6] = a.b7 ↔ valid a = true := (valid_iff a).symm
  rw [exec_loadAddress_of_idle a idle, State.report_of_idle _ (by exact idle)]
  simp only [checksum]
  cases valid a <;> rfl

/-- Settles O21: GET_ADDRESS copies the register out, a flipped bit makes the operand invalid (R104), and what a load
writes is an expression of the operand. -/
theorem loadAddressRoundTrip : Obligations.LoadAddressRoundTrip := by
  unfold Obligations.LoadAddressRoundTrip
  refine ⟨fun a s idle ok => ?_, fun a k s idle ok pos hk => ?_, fun a s s' idle idle' => ?_⟩
  · rw [exec_loadAddress_of_idle a idle, if_pos ok, if_pos ok]
    exact ⟨_, _, rfl, rfl, rfl, rfl⟩
  · have broken : valid (setAbit a k (!abit a k)) = false := valid_flip a k pos (by omega) ok
    rw [exec_loadAddress_of_idle _ idle, broken]
    exact ⟨_, rfl, rfl⟩
  · exact ⟨_, _, exec_loadAddress_of_idle a idle, exec_loadAddress_of_idle a idle', rfl, rfl⟩

/-! ### CONFIRM_PRESENT on any bus -/

/-- The match test: the yielded address is valid, its checksum byte is the operand's, and under `full` it is the operand
(R141, R142). -/
theorem presentMatch_iff {p : Params} {b a : Address} :
    presentMatch p b a = true ↔
      valid b = true ∧ crcByte b = crcByte a ∧ (p.presentCompare = .full → b = a) := by
  rw [valid_iff, eq_comm (a := crc8 _)]
  cases compare : p.presentCompare <;> simp [presentMatch, compare, and_assoc]

theorem confirmYield_done_iff {a : Address} {s t : State} :
    confirmYield a s = .done t ↔ presentMatch s.params s.addr a = true ∧ t = s.iterRestart.report .success := by
  cases test : presentMatch s.params s.addr a <;> simp [confirmYield, test, eq_comm]

theorem confirmYield_again_iff {a a' : Address} {s : State} :
    confirmYield a s = .again a' ↔ presentMatch s.params s.addr a = false ∧ a' = a := by
  cases test : presentMatch s.params s.addr a <;> simp [confirmYield, test, eq_comm]

/-- The ways out of the loop of CONFIRM_PRESENT, which keeps its operand: it waits, ends after "not found", or ends at a
yield that passes the match test (R141). -/
inductive ConfirmOutcome (a : Address) (s : State) : State → Prop
  | waits {point : Await} {u : State} (same : s.SameRegisters u) :
    ConfirmOutcome a s (u.suspend (.confirmPresent a) point)
  | ends {u : State} (same : s.SameRegisters u) : ConfirmOutcome a s (confirmEnd a u)
  | confirmed {u : State} (same : s.SameRegisters u) (hit : presentMatch s.params u.addr a = true) :
    ConfirmOutcome a s (u.iterRestart.report .success)

theorem confirmLoop_outcome {a : Address} {point : Await} {s t : State} (h : confirmLoop a point s = .next t) :
    ConfirmOutcome a s t := by
  refine iterLoop_rule (fun x _ u => x = a ∧ s.SameRegisters u) (fun r => ∀ t, r = .next t → ConfirmOutcome a s t)
    ?waits ?ends ?done ?refuse ?again ?rests s.line.burst a point s ⟨rfl, State.SameRegisters.refl s⟩ t h
  case waits =>
    rintro x point u point' v ⟨rfl, same⟩ out t e
    cases e
    exact .waits (same.trans (iterFrom_frame_of_eq out).1)
  case ends =>
    rintro x point u v ⟨rfl, same⟩ out t e
    cases e
    exact .ends (same.trans (iterFrom_frame_of_eq out).1)
  case done =>
    rintro x point u v w ⟨rfl, same⟩ out yielded t e
    have same' := same.trans (iterFrom_frame_of_eq out).1
    obtain ⟨hit, rfl⟩ := confirmYield_done_iff.1 yielded
    cases e
    exact .confirmed same' (same'.params ▸ hit)
  case refuse => exact fun _ _ _ _ _ _ _ _ _ e => nomatch e
  case again =>
    rintro x point u v x' ⟨rfl, same⟩ out yielded
    exact ⟨(confirmYield_again_iff.1 yielded).2, same.trans (iterFrom_frame_of_eq out).1⟩
  case rests =>
    rintro x u ⟨rfl, same⟩ t e
    cases e
    exact .waits same

/-- Settles O46, by the ways out of CONFIRM_PRESENT's loop. -/
theorem confirmPresentCompletedState : Obligations.ConfirmPresentCompletedState := by
  unfold Obligations.ConfirmPresentCompletedState
  intro a s t h
  rw [exec_confirmPresent] at h
  have loop := (State.accept_next h).2
  refine ⟨(confirmLoop_count loop :), (confirmLoop_matchSeen loop :), ?_⟩
  cases confirmLoop_outcome loop with
  | waits same => exact ⟨nofun, fun _ => same.result⟩
  | ends => exact ⟨fun _ => ⟨⟨rfl, rfl, rfl⟩, .inr rfl⟩, nofun⟩
  | confirmed _ hit =>
    obtain ⟨ok, crc, full⟩ := presentMatch_iff.1 hit
    exact ⟨fun _ => ⟨⟨rfl, rfl, rfl⟩, .inl ⟨rfl, (valid_iff _).1 ok, crc, full⟩⟩, nofun⟩

/-! ### CONFIRM_PRESENT on the ideal bus -/

/-- No twin at position 64 is taken in the device's place by the step after ITER_TARGET (R122). -/
def NotSkipped (population : List Address) (a : Address) : Prop :=
  abit a 64 = true ∨ ∀ b ∈ population, agreeTo63 a b → b = a

/-- Of two devices that agree at positions 1 to 63, the one with 1 at position 64 is taken, so the other is skipped. -/
theorem NotSkipped.eq_of_twin {population : List Address} {a b : Address} (h : NotSkipped population a)
    (mem : b ∈ population) (twin : agreeTo63 b a) (one : abit b 64 = true) : a = b := by
  have agree : agreeBefore 64 b a := agreeTo63_iff.1 twin
  rcases h with oneA | alone
  · have all : agreeBefore 65 b a := agree.succ (one.trans oneA.symm)
    exact eq_of_abit fun k hk => (all k hk.1 (by omega)).symm
  · exact (alone b mem (agreeTo63_iff.2 agree.symm)).symm

/-- The pass from ITER_TARGET on the ideal bus is a row of yields that fits the burst. It holds every device of the
family that no twin is taken for (R119). -/
theorem exists_targeted_row {population : List Address} {s : State} (f : Byte) (bus : s.OnIdealBus population)
    (nodup : population.Nodup) :
    ∃ yields u v, iterYields yields.length (s.iterTarget f) = some (yields, u) ∧ iterStep u = .notFound v ∧
      yields.length ≤ population.length + 1 ∧ yields ⊆ population ∧
      ∀ a ∈ population, family a = f → NotSkipped population a → a ∈ yields := by
  by_cases empty : population = []
  · subst empty
    obtain ⟨v, notFound, -⟩ := iterStep_ideal_empty (s := s.iterTarget f) bus rfl
    exact ⟨[], _, _, rfl, notFound, Nat.zero_le _, List.nil_subset _, fun a mem => absurd mem List.not_mem_nil⟩
  · obtain ⟨t, found, land⟩ := iterStep_target_found f bus empty
    obtain ⟨later, u, row, perm, -, -, last⟩ := land.standing.yields nodup
    refine ⟨t.addr :: later, u, _, iterYields_cons found row, iterStep_of_lastDevice_true last, ?_, ?_, ?_⟩
    · rw [List.length_cons, ← perm.length_eq]
      exact Nat.succ_le_succ (List.length_filter_le _ _)
    · rw [land.addr]
      exact List.cons_subset.2 ⟨land.member, fun b mem => (mem_laterThan.1 (perm.mem_iff.2 mem)).1⟩
    · rintro a mem rfl notSkipped
      rw [land.addr, List.mem_cons, ← perm.mem_iff, mem_laterThan]
      refine or_iff_not_imp_left.2 fun ne => ⟨mem, ?_⟩
      rcases land.twin_or_later mem (land.family_of_targeted mem) ne with ⟨twin, one⟩ | ⟨-, lt⟩
      · exact absurd (notSkipped.eq_of_twin land.member twin one) ne
      · exact lt

/-- CONFIRM_PRESENT's loop over a row of yields: it ends at one that passes the match test, or, when none does, after
"not found" (R141). -/
theorem confirmPresent_row {yields : List Address} {m : Nat} {a : Address} {s u v : State}
    (row : iterYields yields.length s = some (yields, u)) (ended : iterStep u = .notFound v)
    (room : yields.length ≤ m) :
    (∃ w : State,
      iterLoop .confirmPresent confirmYield confirmEnd m a .entry s = .next (w.iterRestart.report .success) ∧
      w.addr ∈ yields ∧ presentMatch s.params w.addr a = true) ∨
    (iterLoop .confirmPresent confirmYield confirmEnd m a .entry s = .next (confirmEnd a v) ∧
      ∀ b ∈ yields, presentMatch s.params b a = false) := by
  induction yields generalizing m s with
  | nil =>
    cases row
    exact .inr ⟨iterLoop_ends ended, fun b mem => absurd mem List.not_mem_nil⟩
  | cons b yields ih =>
    obtain ⟨t, found, rfl, rest⟩ := iterYields_cons_inv row
    have params : t.params = s.params := (iterFrom_frame_of_eq (point := .entry) found).1.params
    obtain ⟨m, rfl⟩ : ∃ k, m = k + 1 := Nat.exists_eq_succ_of_ne_zero (Nat.ne_zero_of_lt room)
    rw [← params]
    cases test : presentMatch t.params t.addr a with
    | true => exact .inl ⟨t, iterLoop_done found (confirmYield_done_iff.2 ⟨test, rfl⟩), List.mem_cons_self, test⟩
    | false =>
      rw [iterLoop_again (point := .entry) found (confirmYield_again_iff.2 ⟨test, rfl⟩)]
      rcases ih rest (Nat.le_of_succ_le_succ room) with ⟨w, run, mem, hit⟩ | ⟨run, none⟩
      · exact .inl ⟨w, run, List.mem_cons_of_mem _ mem, hit⟩
      · exact .inr ⟨run, List.forall_mem_cons.2 ⟨test, none⟩⟩

/-- CONFIRM_PRESENT's pass over the ideal bus: a device that passes the match test is confirmed, or no device of the
target family that the pass reaches does. -/
theorem confirmLoop_ideal {population : List Address} {s : State} (a : Address) (bus : s.OnIdealBus population)
    (nodup : population.Nodup) :
    ∃ t : State, confirmLoop a .entry (s.iterTarget s.params.targetFamily) = .next t ∧ t.Idle ∧ t.Rewound ∧
      ((t.result = .success ∧ t.addr ∈ population ∧ presentMatch s.params t.addr a = true) ∨
        (t.result = .noDevice ∧ ∀ b ∈ population, family b = s.params.targetFamily → NotSkipped population b →
          presentMatch s.params b a = false)) := by
  obtain ⟨yields, u, v, row, ended, room, onBus, reached⟩ := exists_targeted_row s.params.targetFamily bus nodup
  have burst : (s.iterTarget s.params.targetFamily).line.burst = population.length + 1 := by
    obtain ⟨line, e, rfl⟩ := bus
    rw [State.iterTarget_line, e, Line.burst]
  rw [confirmLoop, burst]
  rcases confirmPresent_row (a := a) row ended room with ⟨w, run, mem, hit⟩ | ⟨run, none⟩
  · exact ⟨_, run, rfl, ⟨rfl, rfl, rfl⟩, .inl ⟨rfl, onBus mem, hit⟩⟩
  · exact ⟨_, run, rfl, ⟨rfl, rfl, rfl⟩, .inr ⟨rfl, fun b mem target notSkipped =>
      none b (reached b mem target notSkipped)⟩⟩

/-- Settles O47. A valid operand passes the match test itself, so where the pass reaches it some device is confirmed;
under `full` only the operand passes. -/
theorem confirmPresentOnTheIdealBus : Obligations.ConfirmPresentOnTheIdealBus := by
  unfold Obligations.ConfirmPresentOnTheIdealBus
  intro s population a idle bus nodup
  rw [exec_confirmPresent, State.accept_idle idle]
  obtain ⟨t, run, idleT, rewound, ⟨result, onBus, hit⟩ | ⟨result, none⟩⟩ :=
    confirmLoop_ideal (s := s.record (.accepted (Instr.confirmPresent a).opcode (Instr.confirmPresent a).operand))
      a bus nodup
  · have full : s.params.presentCompare = .full → t.addr = a := (presentMatch_iff.1 hit).2.2
    exact ⟨fun _ _ _ _ => ⟨t, run, idleT, rewound, result, full⟩,
      fun absent compare => absurd (full compare ▸ onBus) absent⟩
  · refine ⟨fun present ok target notSkipped => ?_, fun _ _ => ⟨t, run, idleT, rewound, result⟩⟩
    have miss := none a present target notSkipped
    rw [presentMatch_iff.2 ⟨ok, rfl, fun _ => rfl⟩] at miss
    cases miss

end Sys2Proof.Machine
end

section
/-! The nine getters (spec/44_getters.md): O23 to O26. A getter responds with a payload read from the registers and
writes the history only, so each statement is about the payload alone. -/

namespace Sys2Proof.Machine

/-! ### What a getter answers -/

/-- The payload of a getter in a state (R150 to R158); the other five commands are no getters. -/
def getterPayload (s : State) : Instr → Option (List Byte)
  | .getResult => some [resultByte s.result]
  | .getCount => some [s.count]
  | .getFamily => some [addrByte s.addr 0]
  | .getId => some [addrByte s.addr s.params.idByteIndex]
  | .getPin => some [s.pin]
  | .getAddress => some s.addr.toBytes
  | .getSerial => some (serial s.addr)
  | .getIsSuccess => some [flagByte (isSuccess s.result)]
  | .getIsError => some [flagByte (isError s.result)]
  | .fullScan | .stepNext | .confirmPresent _ | .loadAddress _ | .restart => none

/-- A getter reads registers: its payload does not depend on what the block did before (R149). -/
theorem getterPayload_withHistory (s : State) (events : List Event) (i : Instr) :
    getterPayload { s with history := events } i = getterPayload s i := by
  cases i <;> rfl

/-- A getter is the shared form of the getters with its payload, and acceptance leaves the registers it reads. -/
theorem exec_getter {i : Instr} {s : State} {bytes : List Byte} (getter : getterPayload s i = some bytes) :
    exec i s = s.answer i fun _ => bytes := by
  cases i <;> cases getter <;> rfl

theorem operand_of_getter {i : Instr} {s : State} {bytes : List Byte} (getter : getterPayload s i = some bytes) :
    i.operand = [] := by
  cases i <;> cases getter <;> rfl

/-- The next state of an idle block given a getter: two more events, and every register as it was. -/
theorem exec_getter_of_idle {i : Instr} {s : State} {bytes : List Byte} (idle : s.Idle)
    (getter : getterPayload s i = some bytes) :
    exec i s = .next { s with history := .response .ack bytes :: .accepted i.opcode [] :: s.history } := by
  rw [exec_getter getter, State.answer, State.accept_idle idle, operand_of_getter getter]
  simp [State.respond, State.record, show s.control = .idle from idle]

/-! ### The payloads as the spec writes them -/

/-- GET_ID's byte, counted within the serial number (R153). -/
theorem addrByte_idByteIndex (a : Address) (p : Params) :
    addrByte a p.idByteIndex = (serial a).getD (p.idByteIndex - 1) 0 := by
  unfold Params.idByteIndex
  generalize p.idSerialByte = k
  fin_cases k <;> rfl

theorem flagByte_isSuccess (r : ResultCode) : flagByte (isSuccess r) = if r = .success then 0x01 else 0x00 := by
  cases r <;> rfl

theorem flagByte_isError (r : ResultCode) :
    flagByte (isError r) = if r = .noDevice ∨ r = .crcMismatch then 0x01 else 0x00 := by
  cases r <;> rfl

/-! ### The statements -/

/-- Settles O23: the payloads are the registers themselves, but for GET_ID's place in the serial number. -/
theorem registerGettersRespond : Obligations.RegisterGettersRespond := by
  unfold Obligations.RegisterGettersRespond
  intro s idle
  have idByte : getterPayload s .getId = some [(serial s.addr).getD (s.params.idByteIndex - 1) 0] := by
    rw [getterPayload, addrByte_idByteIndex]
  exact ⟨exec_getter_of_idle idle rfl, exec_getter_of_idle idle rfl, exec_getter_of_idle idle rfl,
    exec_getter_of_idle idle idByte, exec_getter_of_idle idle rfl⟩

/-- Settles O24: both payloads are lists of bytes of ADDR. -/
theorem copyOutGettersRespond : Obligations.CopyOutGettersRespond := by
  unfold Obligations.CopyOutGettersRespond
  exact fun s idle => ⟨exec_getter_of_idle idle rfl, exec_getter_of_idle idle rfl⟩

/-- Settles O25: the two predicates are these tests of RESULT. -/
theorem predicateGettersRespond : Obligations.PredicateGettersRespond := by
  unfold Obligations.PredicateGettersRespond
  intro s idle
  rw [← flagByte_isSuccess, ← flagByte_isError]
  exact ⟨exec_getter_of_idle idle rfl, exec_getter_of_idle idle rfl⟩

/-- Settles O26: a getter leaves the block idle with only its history changed, and the second payload does not depend on
the history. -/
theorem gettersChangeNothing : Obligations.GettersChangeNothing := by
  unfold Obligations.GettersChangeNothing
  intro i s mem idle
  have isGetter : (getterPayload s i).isSome := by
    revert i
    simp [getterPayload]
  obtain ⟨bytes, payload⟩ := Option.isSome_iff_exists.1 isGetter
  have again : getterPayload { s with history := .response .ack bytes :: .accepted i.opcode [] :: s.history } i =
      some bytes := by
    rw [getterPayload_withHistory, payload]
  exact ⟨bytes, _, exec_getter_of_idle idle payload, rfl, exec_getter_of_idle (by exact idle) again⟩

end Sys2Proof.Machine
end

section
/-! RESULT and the responses that carry it (spec/60_exceptions.md R170 to R174), the busy block (R178), and the end of the
bus commands on a bus without a presence pulse (R172). The codes a command can end with are said once, `resultCodes`. -/

namespace Sys2Proof.Machine

/-! ### The busy block -/

/-- Every arm of `exec` goes through the acceptance of its command. -/
theorem exists_exec_eq_accept (i : Instr) (s : State) : ∃ body, exec i s = s.accept i body := by
  cases i with
  | fullScan => exact ⟨_, exec_fullScan s⟩
  | stepNext => exact ⟨_, exec_stepNext s⟩
  | confirmPresent a => exact ⟨_, exec_confirmPresent a s⟩
  | loadAddress a => exact ⟨_, exec_loadAddress a s⟩
  | restart => exact ⟨_, exec_restart s⟩
  | _ => exact ⟨_, exec_getter rfl⟩

theorem exec_of_busy {s : State} (busy : s.busy = true) (i : Instr) : exec i s = .refused .commandWhileBusy := by
  obtain ⟨body, accepted⟩ := exists_exec_eq_accept i s
  rw [accepted, State.accept_running busy]

theorem State.busy_eq_true {s : State} : s.busy = true ↔ ∃ task point, s.control = .running task point := by
  cases control : s.control <;> simp [State.busy, control]

theorem State.After.acceptances_eq {s t : State} (h : s.After t) : acceptances t.history = acceptances s.history := by
  obtain ⟨new, grows, unaccepted⟩ := h.grows
  have nothingElse : new.countP Event.isAccepted = 0 := unaccepted
  simp [acceptances, grows, nothingElse]

theorem resume_surroundings {task : BusTask} {point : Await} {s t : State} (h : resume task point s = .next t) :
    t.surroundings = s.surroundings := by
  cases task with
  | fullScan n => exact fullScanLoop_surroundings h
  | stepNext => exact stepNextLoop_surroundings h
  | confirmPresent a => exact confirmLoop_surroundings h

/-- Settles O7: `exec` refuses through the acceptance, and a step of a busy block only goes on with its command, which
leaves the port alone and accepts nothing. -/
theorem busyBlockAcceptsNoCommand : Obligations.BusyBlockAcceptsNoCommand := by
  unfold Obligations.BusyBlockAcceptsNoCommand
  refine ⟨fun i s busy => exec_of_busy busy i, fun s t busy noReset h => ?_⟩
  obtain ⟨task, point, running⟩ := State.busy_eq_true.1 busy
  rw [step_of_running noReset running] at h
  have kept := resume_surroundings h
  simp only [State.surroundings, Prod.mk.injEq] at kept
  obtain ⟨-, -, port, -⟩ := kept
  exact ⟨port, (resume_after h).acceptances_eq⟩

/-! ### The codes a command can end with -/

/-- The result codes a command can end with, given MATCH_SEEN at its start: none for RESTART and the getters, which leave
RESULT alone (R171 to R174). -/
def resultCodes (matchSeen : Bool) : Instr → List ResultCode
  | .fullScan | .confirmPresent _ => [.success, .noDevice]
  | .stepNext => [.success, if matchSeen then .endOfEnum else .noDevice]
  | .loadAddress a => [if valid a then .success else .crcMismatch]
  | .restart | .getResult | .getCount | .getFamily | .getId | .getPin | .getAddress | .getSerial | .getIsSuccess
  | .getIsError => []

/-- The command that drives a task. -/
def BusTask.command : BusTask → Instr
  | .fullScan _ => .fullScan
  | .stepNext => .stepNext
  | .confirmPresent a => .confirmPresent a

theorem crcMismatch_mem_resultCodes {i : Instr} {matchSeen : Bool} :
    .crcMismatch ∈ resultCodes matchSeen i ↔ ∃ a, i = .loadAddress a ∧ valid a = false := by
  cases i <;> simp [resultCodes, eq_ite_iff]

theorem endOfEnum_mem_resultCodes {i : Instr} {matchSeen : Bool} :
    .endOfEnum ∈ resultCodes matchSeen i ↔ i = .stepNext ∧ matchSeen = true := by
  cases i <;> simp [resultCodes, eq_ite_iff]

/-- From `s` to `t` an operation command was left running with RESULT as it was, or it ended with one of the codes in
RESULT and in its response (R170). -/
def State.EndsIn (codes : List ResultCode) (s t : State) : Prop :=
  (t.busy = true ∧ t.result = s.result) ∨
    (t.result ∈ codes ∧ t.history.head? = some (.response .ack [resultByte t.result]))

theorem State.report_endsIn {codes : List ResultCode} {code : ResultCode} (mem : code ∈ codes) (s u : State) :
    s.EndsIn codes (u.report code) :=
  .inr ⟨mem, rfl⟩

theorem State.suspend_endsIn {s u : State} (same : s.SameRegisters u) (codes : List ResultCode) (task : BusTask)
    (point : Await) : s.EndsIn codes (u.suspend task point) :=
  .inl ⟨rfl, same.result⟩

theorem fullScanLoop_endsIn {n : Byte} {point : Await} {s t : State} (h : fullScanLoop n point s = .next t) :
    s.EndsIn [.success, .noDevice] t := by
  cases iterLoop_outcome h with
  | waits same => exact State.suspend_endsIn same ..
  | @ends m u =>
    have mem : (if m = 0 then .noDevice else .success) ∈ [ResultCode.success, .noDevice] := by split <;> simp
    exact State.report_endsIn mem ..
  | done _ _ out => exact absurd out fullScanYield_ne_done

/-- STEP_NEXT's end reads MATCH_SEEN, which its loop has not written (R133). -/
theorem stepNextLoop_endsIn {point : Await} {s t : State} (h : stepNextLoop point s = .next t) :
    s.EndsIn [.success, if s.matchSeen then .endOfEnum else .noDevice] t := by
  cases iterLoop_outcome h with
  | waits same => exact State.suspend_endsIn same ..
  | ends same =>
    rw [← same.matchSeen]
    exact State.report_endsIn (by simp) ..
  | done _ _ out =>
    rw [(stepNextYield_done out).2]
    exact State.report_endsIn (by simp) ..

theorem confirmLoop_endsIn {a : Address} {point : Await} {s t : State} (h : confirmLoop a point s = .next t) :
    s.EndsIn [.success, .noDevice] t := by
  cases confirmLoop_outcome h with
  | waits same => exact State.suspend_endsIn same ..
  | ends => exact State.report_endsIn (by simp) ..
  | confirmed => exact State.report_endsIn (by simp) ..

theorem resume_endsIn {task : BusTask} {point : Await} {s t : State} (h : resume task point s = .next t) :
    s.EndsIn (resultCodes s.matchSeen task.command) t := by
  cases task with
  | fullScan n => exact fullScanLoop_endsIn h
  | stepNext => exact stepNextLoop_endsIn h
  | confirmPresent a => exact confirmLoop_endsIn h

theorem execLoadAddress_endsIn {a : Address} {s t : State} (h : exec (.loadAddress a) s = .next t) :
    s.EndsIn [if valid a then .success else .crcMismatch] t := by
  rw [exec_loadAddress_of_idle a (State.accept_next (show execLoadAddress a s = .next t from h)).1] at h
  cases h
  exact State.report_endsIn (by simp) ..

/-- The command is one of the four operations, which set RESULT (R170). -/
abbrev IsOperation (i : Instr) : Prop :=
  i = .fullScan ∨ i = .stepNext ∨ (∃ a, i = .confirmPresent a) ∨ ∃ a, i = .loadAddress a

theorem isOperation_or_resultCodes_nil (i : Instr) (matchSeen : Bool) : IsOperation i ∨ resultCodes matchSeen i = [] := by
  cases i <;> simp [IsOperation, resultCodes]

theorem exec_endsIn {i : Instr} {s t : State} (operation : IsOperation i) (h : exec i s = .next t) :
    s.EndsIn (resultCodes s.matchSeen i) t := by
  rcases operation with rfl | rfl | ⟨a, rfl⟩ | ⟨a, rfl⟩
  · rw [exec_fullScan] at h
    exact (fullScanLoop_endsIn (State.accept_next h).2 :)
  · rw [exec_stepNext] at h
    exact (stepNextLoop_endsIn (State.accept_next h).2 :)
  · rw [exec_confirmPresent] at h
    exact (confirmLoop_endsIn (State.accept_next h).2 :)
  · exact execLoadAddress_endsIn h

/-- The commands with no code are RESTART and the getters. -/
theorem exec_result_of_resultCodes_nil {i : Instr} {s t : State} (noCode : resultCodes s.matchSeen i = [])
    (h : exec i s = .next t) : t.result = s.result := by
  cases payload : getterPayload s i with
  | some bytes =>
    rw [exec_getter payload] at h
    cases (State.accept_next h).2
    rfl
  | none =>
    obtain rfl : i = .restart := by cases i <;> simp_all [resultCodes, getterPayload]
    rw [exec_restart] at h
    cases (State.accept_next h).2
    rfl

/-- Settles O51: an operation that is not left running ended with its code in RESULT and in the response, and the other
commands have no code. -/
theorem resultCodeIsReported : Obligations.ResultCodeIsReported := by
  unfold Obligations.ResultCodeIsReported
  refine ⟨fun i s t operation h responded => ?_, fun i s t other h => ?_⟩
  · rcases exec_endsIn operation h with ⟨busy, -⟩ | ⟨-, response⟩
    · exact absurd (responded.symm.trans busy) Bool.noConfusion
    · exact response
  · have noCode : resultCodes s.matchSeen i = [] := by
      revert i
      simp [resultCodes]
    exact exec_result_of_resultCodes_nil noCode h

/-! ### Where the code in RESULT comes from -/

theorem State.EndsIn.result {codes : List ResultCode} {s t : State} (h : s.EndsIn codes t) :
    t.result = s.result ∨ t.result ∈ codes :=
  h.imp And.right And.left

theorem exec_result {i : Instr} {s t : State} (h : exec i s = .next t) :
    t.result = s.result ∨ t.result ∈ resultCodes s.matchSeen i := by
  rcases isOperation_or_resultCodes_nil i s.matchSeen with operation | noCode
  · exact (exec_endsIn operation h).result
  · exact .inl (exec_result_of_resultCodes_nil noCode h)

/-- The code that a step leaves in RESULT was there, is the reset value, or is one of the codes of the command in progress
or of the command that the step takes from the port. -/
theorem step_result {s t : State} (h : step s = .next t) :
    t.result = s.result ∨ t.result = .noDevice ∨
      (∃ task point, s.control = .running task point ∧ t.result ∈ resultCodes s.matchSeen task.command) ∨
      ∃ i rest, s.Idle ∧ decode s.port = .command i rest ∧ t.result ∈ resultCodes s.matchSeen i := by
  rcases step_next_cases h with
    ⟨-, rfl⟩ | ⟨-, ⟨task, point, running, h⟩ | ⟨idle, rfl | ⟨opcode, rest, -, rfl⟩ | ⟨i, rest, fetched, h⟩⟩⟩
  · exact .inr (.inl rfl)
  · exact (resume_endsIn h).result.imp_right fun mem => .inr (.inl ⟨task, point, running, mem⟩)
  · exact .inl rfl
  · exact .inl rfl
  · exact (exec_result h).imp_right fun mem => .inr (.inr ⟨i, rest, idle, fetched, mem⟩)

/-- Settles O52: the only command with the code CRC_MISMATCH is LOAD_ADDRESS, which is never in progress. -/
theorem crcMismatchOnlyFromLoadAddress : Obligations.CrcMismatchOnlyFromLoadAddress := by
  unfold Obligations.CrcMismatchOnlyFromLoadAddress
  intro s t h mismatch
  have source := step_result h
  rw [mismatch] at source
  rcases source with kept | reset | ⟨task, point, -, mem⟩ | ⟨i, rest, idle, fetched, mem⟩
  · exact .inl kept.symm
  · cases reset
  · obtain ⟨a, load, -⟩ := crcMismatch_mem_resultCodes.1 mem
    cases task <;> cases load
  · obtain ⟨a, rfl, invalid⟩ := crcMismatch_mem_resultCodes.1 mem
    exact .inr ⟨a, rest, idle, fetched, invalid⟩

theorem BusTask.eq_stepNext_of_command {task : BusTask} (h : task.command = .stepNext) : task = .stepNext := by
  cases task <;> cases h
  rfl

/-- Settles O53: the only command with the code END_OF_ENUM is STEP_NEXT, with MATCH_SEEN set; it was in progress or is
taken from the port. -/
theorem endOfEnumOnlyFromStepNext : Obligations.EndOfEnumOnlyFromStepNext := by
  unfold Obligations.EndOfEnumOnlyFromStepNext
  intro s t h ended
  have source := step_result h
  rw [ended] at source
  rcases source with kept | reset | ⟨task, point, running, mem⟩ | ⟨i, rest, idle, fetched, mem⟩
  · exact .inl kept.symm
  · cases reset
  · obtain ⟨command, seen⟩ := endOfEnum_mem_resultCodes.1 mem
    obtain rfl := BusTask.eq_stepNext_of_command command
    exact .inr ⟨seen, .inl ⟨point, running⟩⟩
  · obtain ⟨rfl, seen⟩ := endOfEnum_mem_resultCodes.1 mem
    exact .inr ⟨seen, .inr ⟨idle, rest, fetched⟩⟩

/-! ### A bus without a presence pulse -/

/-- An ITER_STEP that issues T_RESET and hears no presence pulse ends after that primitive (R114, R115 (b)). -/
theorem iterFrom_no_presence {s : State} {rest : List Bool} {writes : Nat} (last : s.lastDevice = false)
    (line : s.line = .script (false :: rest) writes) :
    iterFrom .entry s = .notFound
      (State.iterRestart { s with line := .script rest writes, history := .tReset false :: s.history }) := by
  simp [iterFrom, iterStep, last, searchBus, State.tReset_script_cons line]

/-- Settles O38: the loop of each command ends at its first ITER_STEP; FULL_SCAN and CONFIRM_PRESENT have set LAST_DEVICE
to 0 themselves. -/
theorem noPresenceEndsTheBusCommands : Obligations.NoPresenceEndsTheBusCommands := by
  unfold Obligations.NoPresenceEndsTheBusCommands
  intro s rest writes a idle line
  refine ⟨?_, fun last => ?_, ?_⟩
  · rw [exec_fullScan, State.accept_idle idle]
    refine (iterLoop_ends (iterFrom_no_presence (by rfl) (by exact line))).trans (congrArg _ ?_)
    exact State.report_of_idle _ (by exact idle)
  · have code : resultByte (if s.matchSeen then .endOfEnum else .noDevice) = if s.matchSeen then 0x01 else 0x02 :=
      apply_ite ..
    rw [exec_stepNext, State.accept_idle idle]
    refine (iterLoop_ends (iterFrom_no_presence (by exact last) (by exact line))).trans (congrArg _ ?_)
    rw [← code]
    exact State.report_of_idle _ (by exact idle)
  · rw [exec_confirmPresent, State.accept_idle idle]
    refine (iterLoop_ends (iterFrom_no_presence (by rfl) (by exact line))).trans (congrArg _ ?_)
    exact State.report_of_idle _ (by exact idle)

end Sys2Proof.Machine
end

section
/-! Reset and hazards (spec/70_reset_and_hazards.md): what only a reset writes (R194, R27), and the leak of the family
restriction (R208). -/

namespace Sys2Proof.Machine

/-! ### The parameters and PIN -/

theorem exec_params_pin {i : Instr} {s t : State} (h : exec i s = .next t) : t.params = s.params ∧ t.pin = s.pin := by
  rcases exec_next_cases h with command | ⟨at_once, -⟩
  · obtain ⟨params, pin, -⟩ := busCommandFrame i s t command h
    exact ⟨params, pin⟩
  · exact ⟨at_once.params, at_once.pin⟩

theorem resume_params_pin {task : BusTask} {point : Await} {s t : State} (h : resume task point s = .next t) :
    t.params = s.params ∧ t.pin = s.pin := by
  have kept := resume_surroundings h
  simp only [State.surroundings, Prod.mk.injEq] at kept
  obtain ⟨params, pin, -⟩ := kept
  exact ⟨params, pin⟩

/-- Settles O11, by the cases of `step`: a reset keeps the parameters and writes PIN; the other steps keep both. -/
theorem parametersAndPinAreConstant : Obligations.ParametersAndPinAreConstant := by
  unfold Obligations.ParametersAndPinAreConstant
  refine ⟨fun s t h => ?_, fun i s t h => exec_params_pin h⟩
  rcases step_next_cases h with
    ⟨reset, rfl⟩ | ⟨-, ⟨task, point, -, h⟩ | ⟨-, rfl | ⟨opcode, rest, -, rfl⟩ | ⟨i, rest, -, h⟩⟩⟩
  · exact ⟨rfl, fun noReset => absurd (reset.symm.trans noReset) Bool.noConfusion⟩
  · exact (resume_params_pin h).imp_right fun pin _ => pin
  · exact ⟨rfl, fun _ => rfl⟩
  · exact ⟨rfl, fun _ => rfl⟩
  · exact (exec_params_pin h).imp_right fun pin _ => pin

/-! ### The leak of the family restriction -/

/-- On an ideal bus with one device, whatever its family, ITER_TARGET leads to that device: it is confirmed if it passes
the match test (R119, R141). -/
theorem exec_confirmPresent_single {s : State} {a b : Address} (idle : s.Idle) (bus : s.OnIdealBus [b])
    (hit : presentMatch s.params b a = true) :
    ∃ t, exec (.confirmPresent a) s = .next t ∧ t.result = .success ∧ t.addr = b := by
  rw [exec_confirmPresent, State.accept_idle idle]
  obtain ⟨t, found, land⟩ := iterStep_target_found
    (s := s.record (.accepted (Instr.confirmPresent a).opcode (Instr.confirmPresent a).operand)) s.params.targetFamily
    bus (List.cons_ne_nil _ _)
  have addr : t.addr = b := land.addr.trans (List.mem_singleton.1 land.member)
  have params : t.params = s.params := (iterFrom_frame_of_eq (point := .entry) found).1.params
  have confirmed : confirmYield a t = .done (t.iterRestart.report .success) :=
    confirmYield_done_iff.2 ⟨by rw [params, addr, hit], rfl⟩
  exact ⟨_, iterLoop_done found confirmed, rfl, addr⟩

/-- Device DG of the spec's test vectors: valid and of family 0x03, foreign under the reference parameters (V26). -/
def foreignDevice : Address := ⟨0x03, 0xF4, 0x00, 0x00, 0x00, 0x00, 0x00, 0xE9⟩

/-- The block after reset on the ideal bus that holds the foreign device alone. -/
def foreignBus : State := { State.reset with line := .ideal (IdealBus.quiet [foreignDevice]) }

theorem valid_foreignDevice : valid foreignDevice = true := by decide +kernel

theorem foreignBus_onIdealBus : foreignBus.OnIdealBus [foreignDevice] := ⟨_, rfl, rfl⟩

theorem family_foreignDevice_ne : family foreignDevice ≠ foreignBus.params.targetFamily := by decide

/-- Settles O48 with V26: the operand is a device of the target family, and the foreign device alone on the bus shares
its checksum byte. -/
theorem familyRestrictionLeaks : Obligations.FamilyRestrictionLeaks := by
  unfold Obligations.FamilyRestrictionLeaks
  have hit : presentMatch foreignBus.params foreignDevice ⟨0x01, 0x23, 0x45, 0x67, 0x89, 0xAB, 0xCD, 0xE9⟩ = true :=
    presentMatch_iff.2 ⟨valid_foreignDevice, rfl, nofun⟩
  obtain ⟨t, run, success, addr⟩ := exec_confirmPresent_single rfl foreignBus_onIdealBus hit
  exact ⟨foreignBus, t, _, _, rfl, foreignBus_onIdealBus, List.forall_mem_singleton.2 family_foreignDevice_ne, run,
    success, addr ▸ family_foreignDevice_ne⟩

end Sys2Proof.Machine
end
